-- ==== Sys2Proof/Word.lean ====
section
/-! DEFINITION. The machine's word types (00_scope.md rule R5, 10_state.md rules R21 to R24): bytes, 16-bit words,
register numbers and 12-bit addresses. Every value of the machine is an unsigned integer of a stated width (rule R8). -/

namespace Sys2Proof

/-- An 8-bit value: a general register, a timer, a memory byte, an immediate `nn` (rules R21, R28, R73). -/
abbrev Byte := BitVec 8

/-- A 16-bit value: PC, I, a stack slot, an instruction word (rules R23, R24, R26, R70). -/
abbrev Word := BitVec 16

/-- A 4-bit field: a register number `x` or `y`, a row count `n`, a key code (rules R71, R37). -/
abbrev Nibble := BitVec 4

/-- The 12-bit address field `nnn` (rule R71). -/
abbrev Addr12 := BitVec 12

end Sys2Proof
end

