-- ==== Sys2Proof/Syntax.lean ====
section
/-! DEFINITION. The 33 instructions of 30_encoding.md rule R75, one constructor per row of spec/opcode_table.json, in
the table's order. Operand fields are those of rule R71. Where the decoder ignores bits of a row (rules R76, R77,
R130, R131) the constructor still carries them, as its last argument or arguments: they have no effect on execution
(rule R81), but a fault records the whole fetched word in FOP (60_exceptions.md rule R181). -/

namespace Sys2Proof

/-- An instruction. -/
inductive Instr where
  /-- Row 1, `0--0`: CLS. `ign` is bits 11:4, ignored. -/
  | cls (ign : Byte)
  /-- Row 2, `0--E`: RET. `ign` is bits 11:4, ignored. -/
  | ret (ign : Byte)
  /-- Row 3, `1nnn`: JP nnn. -/
  | jpNnn (nnn : Addr12)
  /-- Row 4, `2nnn`: CALL nnn. -/
  | callNnn (nnn : Addr12)
  /-- Row 5, `3xnn`: SE Vx,nn. -/
  | seVxNn (x : Nibble) (nn : Byte)
  /-- Row 6, `4xnn`: SNE Vx,nn. -/
  | sneVxNn (x : Nibble) (nn : Byte)
  /-- Row 7, `5xy-`: SE Vx,Vy. `n` is bits 3:0, ignored. -/
  | seVxVy (x y n : Nibble)
  /-- Row 8, `6xnn`: LD Vx,nn. -/
  | ldVxNn (x : Nibble) (nn : Byte)
  /-- Row 9, `7xnn`: ADD Vx,nn. -/
  | addVxNn (x : Nibble) (nn : Byte)
  /-- Row 10, `8xy0`: LD Vx,Vy. -/
  | ldVxVy (x y : Nibble)
  /-- Row 11, `8xy1`: OR Vx,Vy. -/
  | orVxVy (x y : Nibble)
  /-- Row 12, `8xy2`: AND Vx,Vy. -/
  | andVxVy (x y : Nibble)
  /-- Row 13, `8xy3`: XOR Vx,Vy. -/
  | xorVxVy (x y : Nibble)
  /-- Row 14, `8xy4`: ADD Vx,Vy. -/
  | addVxVy (x y : Nibble)
  /-- Row 15, `8xy5`: SUB Vx,Vy. -/
  | subVxVy (x y : Nibble)
  /-- Row 16, `8x-6`: SHR Vx. `y` is bits 7:4, ignored. -/
  | shrVx (x y : Nibble)
  /-- Row 17, `8x-E`: SHL Vx. `y` is bits 7:4, ignored. -/
  | shlVx (x y : Nibble)
  /-- Row 18, `9xy-`: SNE Vx,Vy. `n` is bits 3:0, ignored. -/
  | sneVxVy (x y n : Nibble)
  /-- Row 19, `Annn`: LD I,nnn. -/
  | ldINnn (nnn : Addr12)
  /-- Row 20, `Bnnn`: JP V0,nnn. -/
  | jpV0Nnn (nnn : Addr12)
  /-- Row 21, `Cxnn`: RND Vx,nn. -/
  | rndVxNn (x : Nibble) (nn : Byte)
  /-- Row 22, `Dxyn`: DRW Vx,Vy,n. -/
  | drwVxVyN (x y n : Nibble)
  /-- Row 23, `Ex9E`: SKP Vx. -/
  | skpVx (x : Nibble)
  /-- Row 24, `ExA1`: SKNP Vx. -/
  | sknpVx (x : Nibble)
  /-- Row 25, `Fx07`: LD Vx,DT. -/
  | ldVxDt (x : Nibble)
  /-- Row 26, `Fx0A`: LD Vx,K. -/
  | ldVxK (x : Nibble)
  /-- Row 27, `Fx15`: LD DT,Vx. -/
  | ldDtVx (x : Nibble)
  /-- Row 28, `Fx18`: LD ST,Vx. -/
  | ldStVx (x : Nibble)
  /-- Row 29, `Fx1E`: ADD I,Vx. -/
  | addIVx (x : Nibble)
  /-- Row 30, `Fx29`: LD F,Vx. -/
  | ldFVx (x : Nibble)
  /-- Row 31, `Fx33`: LD B,Vx. -/
  | ldBVx (x : Nibble)
  /-- Row 32, `Fx55`: LD [I],Vx. -/
  | ldMemIVx (x : Nibble)
  /-- Row 33, `Fx65`: LD Vx,[I]. -/
  | ldVxMemI (x : Nibble)
  deriving DecidableEq, Repr

end Sys2Proof
end

