-- ==== Sys2Proof/WellFormed.lean ====
section
/-! DEFINITION. Well-formedness of an instruction: the canonical spelling of 30_encoding.md rule R79. Every operand
value of every field is legal (rule R73), so the only checks are on bits the decoder ignores. The decoder and the
meanings accept every spelling; this check is for programs that claims are made about. -/

namespace Sys2Proof

/-- The instruction is spelled canonically (rule R79): CLS = 0x00E0, RET = 0x00EE, n = 0 in SE Vx,Vy and SNE Vx,Vy,
y = 0 in SHR Vx and SHL Vx. -/
def Instr.wf : Instr → Bool
  | .cls ign => ign == 0x0E#8
  | .ret ign => ign == 0x0E#8
  | .jpNnn _ => true
  | .callNnn _ => true
  | .seVxNn _ _ => true
  | .sneVxNn _ _ => true
  | .seVxVy _ _ n => n == 0#4
  | .ldVxNn _ _ => true
  | .addVxNn _ _ => true
  | .ldVxVy _ _ => true
  | .orVxVy _ _ => true
  | .andVxVy _ _ => true
  | .xorVxVy _ _ => true
  | .addVxVy _ _ => true
  | .subVxVy _ _ => true
  | .shrVx _ y => y == 0#4
  | .shlVx _ y => y == 0#4
  | .sneVxVy _ _ n => n == 0#4
  | .ldINnn _ => true
  | .jpV0Nnn _ => true
  | .rndVxNn _ _ => true
  | .drwVxVyN _ _ _ => true
  | .skpVx _ => true
  | .sknpVx _ => true
  | .ldVxDt _ => true
  | .ldVxK _ => true
  | .ldDtVx _ => true
  | .ldStVx _ => true
  | .addIVx _ => true
  | .ldFVx _ => true
  | .ldBVx _ => true
  | .ldMemIVx _ => true
  | .ldVxMemI _ => true

end Sys2Proof
end

