-- ==== Sys2Proof/Decode.lean ====
section
/-! DEFINITION. The decoder (30_encoding.md rules R70 to R81) and the encoder, both written from the rules' tables: field
extraction R71, dispatch on the high nibble and the secondary selector R74, and the opcode map R75. The decoder is
total: a word that matches no row is rejected by name (rule R80). -/

namespace Sys2Proof

/-- Why bytes are no instruction. -/
inductive DecodeError where
  /-- The word `op` matches no row of the opcode map (rule R80). -/
  | unrecognizedOpcode (op : Word)
  /-- Fewer than two bytes were given, where every instruction is one 16-bit word (rule R70). -/
  | tooShort
  deriving DecidableEq, Repr

/-! ### Fields (rule R71) -/

/-- The high nibble, bits 15:12, which selects the family. -/
def fieldH (op : Word) : Nibble := op.extractLsb' 12 4

/-- `x`, bits 11:8. -/
def fieldX (op : Word) : Nibble := op.extractLsb' 8 4

/-- `y`, bits 7:4. -/
def fieldY (op : Word) : Nibble := op.extractLsb' 4 4

/-- `n`, bits 3:0. -/
def fieldN (op : Word) : Nibble := op.extractLsb' 0 4

/-- `nn`, bits 7:0. -/
def fieldNn (op : Word) : Byte := op.extractLsb' 0 8

/-- `nnn`, bits 11:0. -/
def fieldNnn (op : Word) : Addr12 := op.extractLsb' 0 12

/-- Bits 11:4, which family 0 does not examine (rule R76). -/
def fieldMid (op : Word) : Byte := op.extractLsb' 4 8

/-! ### Dispatch (rules R74, R75) -/

/-- Family 0, on the low nibble alone (rule R76). -/
def decodeFamily0 (op : Word) : Option Instr :=
  if fieldN op = 0x0#4 then some (.cls (fieldMid op))
  else if fieldN op = 0xE#4 then some (.ret (fieldMid op))
  else none

/-- Family 8, on the low nibble (rows 10 to 17 of rule R75). -/
def decodeFamily8 (op : Word) : Option Instr :=
  if fieldN op = 0x0#4 then some (.ldVxVy (fieldX op) (fieldY op))
  else if fieldN op = 0x1#4 then some (.orVxVy (fieldX op) (fieldY op))
  else if fieldN op = 0x2#4 then some (.andVxVy (fieldX op) (fieldY op))
  else if fieldN op = 0x3#4 then some (.xorVxVy (fieldX op) (fieldY op))
  else if fieldN op = 0x4#4 then some (.addVxVy (fieldX op) (fieldY op))
  else if fieldN op = 0x5#4 then some (.subVxVy (fieldX op) (fieldY op))
  else if fieldN op = 0x6#4 then some (.shrVx (fieldX op) (fieldY op))
  else if fieldN op = 0xE#4 then some (.shlVx (fieldX op) (fieldY op))
  else none

/-- Family E, on the whole low byte (rule R78). -/
def decodeFamilyE (op : Word) : Option Instr :=
  if fieldNn op = 0x9E#8 then some (.skpVx (fieldX op))
  else if fieldNn op = 0xA1#8 then some (.sknpVx (fieldX op))
  else none

/-- Family F, on the whole low byte (rows 25 to 33 of rule R75). -/
def decodeFamilyF (op : Word) : Option Instr :=
  if fieldNn op = 0x07#8 then some (.ldVxDt (fieldX op))
  else if fieldNn op = 0x0A#8 then some (.ldVxK (fieldX op))
  else if fieldNn op = 0x15#8 then some (.ldDtVx (fieldX op))
  else if fieldNn op = 0x18#8 then some (.ldStVx (fieldX op))
  else if fieldNn op = 0x1E#8 then some (.addIVx (fieldX op))
  else if fieldNn op = 0x29#8 then some (.ldFVx (fieldX op))
  else if fieldNn op = 0x33#8 then some (.ldBVx (fieldX op))
  else if fieldNn op = 0x55#8 then some (.ldMemIVx (fieldX op))
  else if fieldNn op = 0x65#8 then some (.ldVxMemI (fieldX op))
  else none

/-- The instruction a word is, if any, by the high nibble and the family's selector (rule R74). -/
def decodeWord? (op : Word) : Option Instr :=
  if fieldH op = 0x0#4 then decodeFamily0 op
  else if fieldH op = 0x1#4 then some (.jpNnn (fieldNnn op))
  else if fieldH op = 0x2#4 then some (.callNnn (fieldNnn op))
  else if fieldH op = 0x3#4 then some (.seVxNn (fieldX op) (fieldNn op))
  else if fieldH op = 0x4#4 then some (.sneVxNn (fieldX op) (fieldNn op))
  else if fieldH op = 0x5#4 then some (.seVxVy (fieldX op) (fieldY op) (fieldN op))
  else if fieldH op = 0x6#4 then some (.ldVxNn (fieldX op) (fieldNn op))
  else if fieldH op = 0x7#4 then some (.addVxNn (fieldX op) (fieldNn op))
  else if fieldH op = 0x8#4 then decodeFamily8 op
  else if fieldH op = 0x9#4 then some (.sneVxVy (fieldX op) (fieldY op) (fieldN op))
  else if fieldH op = 0xA#4 then some (.ldINnn (fieldNnn op))
  else if fieldH op = 0xB#4 then some (.jpV0Nnn (fieldNnn op))
  else if fieldH op = 0xC#4 then some (.rndVxNn (fieldX op) (fieldNn op))
  else if fieldH op = 0xD#4 then some (.drwVxVyN (fieldX op) (fieldY op) (fieldN op))
  else if fieldH op = 0xE#4 then decodeFamilyE op
  else decodeFamilyF op

/-- Decode one instruction word, rejecting an illegal word by name (rule R80). -/
def decode (op : Word) : Except DecodeError Instr :=
  match decodeWord? op with
  | some i => .ok i
  | none => .error (.unrecognizedOpcode op)

/-- The instruction word of two bytes, the byte at the lower address high (rule R55). -/
def wordOfBytes (hi lo : Byte) : Word := hi ++ lo

/-- Decode the first instruction of a list of bytes and return the rest (rule R70: two bytes, big-endian). -/
def decodeBytes : List Byte → Except DecodeError (Instr × List Byte)
  | hi :: lo :: rest =>
    match decode (wordOfBytes hi lo) with
    | .ok i => .ok (i, rest)
    | .error e => .error e
  | _ => .error .tooShort

/-- The 16-bit word of a numbered table row: bit 0 is its least significant bit, and bits at `nbits` and above are 0. -/
def tableWord (nbits w : Nat) : Word := BitVec.ofNat 16 (w % 2 ^ nbits)

/-- The two bytes of an instruction word as the hardware stores them, the lower address first (rule R70). -/
def bytesOfWord (op : Word) : List Byte := [op.extractLsb' 8 8, op.extractLsb' 0 8]

/-- The instruction this decoder reads from an instruction whose bits are `w`, laid out in memory order. -/
def decodeTableWord (nbits w : Nat) : Option Instr :=
  match decodeBytes (bytesOfWord (tableWord nbits w)) with
  | .ok (i, _) => some i
  | .error _ => none

/-! ### Encoder: the formats of rule R72 -/

/-- Format NNN. -/
def wordNNN (h : Nibble) (nnn : Addr12) : Word := h ++ nnn

/-- Format XNN, and XSS where `nn` is the selector. -/
def wordXNN (h x : Nibble) (nn : Byte) : Word := h ++ x ++ nn

/-- Format XYN, and XYS where `n` is the selector or ignored. -/
def wordXYN (h x y n : Nibble) : Word := h ++ x ++ y ++ n

/-- Format Z: `mid` is bits 11:4, ignored. -/
def wordZ (mid : Byte) (n : Nibble) : Word := 0x0#4 ++ mid ++ n

/-- The word of an instruction (rule R75). -/
def encode : Instr → Word
  | .cls ign => wordZ ign 0x0#4
  | .ret ign => wordZ ign 0xE#4
  | .jpNnn nnn => wordNNN 0x1#4 nnn
  | .callNnn nnn => wordNNN 0x2#4 nnn
  | .seVxNn x nn => wordXNN 0x3#4 x nn
  | .sneVxNn x nn => wordXNN 0x4#4 x nn
  | .seVxVy x y n => wordXYN 0x5#4 x y n
  | .ldVxNn x nn => wordXNN 0x6#4 x nn
  | .addVxNn x nn => wordXNN 0x7#4 x nn
  | .ldVxVy x y => wordXYN 0x8#4 x y 0x0#4
  | .orVxVy x y => wordXYN 0x8#4 x y 0x1#4
  | .andVxVy x y => wordXYN 0x8#4 x y 0x2#4
  | .xorVxVy x y => wordXYN 0x8#4 x y 0x3#4
  | .addVxVy x y => wordXYN 0x8#4 x y 0x4#4
  | .subVxVy x y => wordXYN 0x8#4 x y 0x5#4
  | .shrVx x y => wordXYN 0x8#4 x y 0x6#4
  | .shlVx x y => wordXYN 0x8#4 x y 0xE#4
  | .sneVxVy x y n => wordXYN 0x9#4 x y n
  | .ldINnn nnn => wordNNN 0xA#4 nnn
  | .jpV0Nnn nnn => wordNNN 0xB#4 nnn
  | .rndVxNn x nn => wordXNN 0xC#4 x nn
  | .drwVxVyN x y n => wordXYN 0xD#4 x y n
  | .skpVx x => wordXNN 0xE#4 x 0x9E#8
  | .sknpVx x => wordXNN 0xE#4 x 0xA1#8
  | .ldVxDt x => wordXNN 0xF#4 x 0x07#8
  | .ldVxK x => wordXNN 0xF#4 x 0x0A#8
  | .ldDtVx x => wordXNN 0xF#4 x 0x15#8
  | .ldStVx x => wordXNN 0xF#4 x 0x18#8
  | .addIVx x => wordXNN 0xF#4 x 0x1E#8
  | .ldFVx x => wordXNN 0xF#4 x 0x29#8
  | .ldBVx x => wordXNN 0xF#4 x 0x33#8
  | .ldMemIVx x => wordXNN 0xF#4 x 0x55#8
  | .ldVxMemI x => wordXNN 0xF#4 x 0x65#8

/-! ### The opcode map as a table (rule R75), independent of the dispatch above -/

/-- A row of the opcode map: a word `w` is the row's instruction iff `w &&& mask = pattern`. -/
structure OpcodeRow where
  /-- The row's mnemonic as spec/opcode_table.json spells it. -/
  mnemonic : String
  /-- The bits the row fixes. -/
  mask : Word
  /-- Their values (the table's `match`). -/
  pattern : Word
  deriving DecidableEq, Repr

/-- The 33 rows of rule R75, in its order. -/
def opcodeMap : List OpcodeRow :=
  [
    ⟨"CLS", 0xF00F#16, 0x0000#16⟩,
    ⟨"RET", 0xF00F#16, 0x000E#16⟩,
    ⟨"JP_nnn", 0xF000#16, 0x1000#16⟩,
    ⟨"CALL_nnn", 0xF000#16, 0x2000#16⟩,
    ⟨"SE_Vx_nn", 0xF000#16, 0x3000#16⟩,
    ⟨"SNE_Vx_nn", 0xF000#16, 0x4000#16⟩,
    ⟨"SE_Vx_Vy", 0xF000#16, 0x5000#16⟩,
    ⟨"LD_Vx_nn", 0xF000#16, 0x6000#16⟩,
    ⟨"ADD_Vx_nn", 0xF000#16, 0x7000#16⟩,
    ⟨"LD_Vx_Vy", 0xF00F#16, 0x8000#16⟩,
    ⟨"OR_Vx_Vy", 0xF00F#16, 0x8001#16⟩]
  ++ [
    ⟨"AND_Vx_Vy", 0xF00F#16, 0x8002#16⟩,
    ⟨"XOR_Vx_Vy", 0xF00F#16, 0x8003#16⟩,
    ⟨"ADD_Vx_Vy", 0xF00F#16, 0x8004#16⟩,
    ⟨"SUB_Vx_Vy", 0xF00F#16, 0x8005#16⟩,
    ⟨"SHR_Vx", 0xF00F#16, 0x8006#16⟩,
    ⟨"SHL_Vx", 0xF00F#16, 0x800E#16⟩,
    ⟨"SNE_Vx_Vy", 0xF000#16, 0x9000#16⟩,
    ⟨"LD_I_nnn", 0xF000#16, 0xA000#16⟩,
    ⟨"JP_V0_nnn", 0xF000#16, 0xB000#16⟩,
    ⟨"RND_Vx_nn", 0xF000#16, 0xC000#16⟩,
    ⟨"DRW_Vx_Vy_n", 0xF000#16, 0xD000#16⟩]
  ++ [
    ⟨"SKP_Vx", 0xF0FF#16, 0xE09E#16⟩,
    ⟨"SKNP_Vx", 0xF0FF#16, 0xE0A1#16⟩,
    ⟨"LD_Vx_DT", 0xF0FF#16, 0xF007#16⟩,
    ⟨"LD_Vx_K", 0xF0FF#16, 0xF00A#16⟩,
    ⟨"LD_DT_Vx", 0xF0FF#16, 0xF015#16⟩,
    ⟨"LD_ST_Vx", 0xF0FF#16, 0xF018#16⟩,
    ⟨"ADD_I_Vx", 0xF0FF#16, 0xF01E#16⟩,
    ⟨"LD_F_Vx", 0xF0FF#16, 0xF029#16⟩,
    ⟨"LD_B_Vx", 0xF0FF#16, 0xF033#16⟩,
    ⟨"LD__I__Vx", 0xF0FF#16, 0xF055#16⟩,
    ⟨"LD_Vx__I", 0xF0FF#16, 0xF065#16⟩]

/-- The row of an instruction, by its mnemonic in spec/opcode_table.json. -/
def Instr.mnemonic : Instr → String
  | .cls _ => "CLS"
  | .ret _ => "RET"
  | .jpNnn _ => "JP_nnn"
  | .callNnn _ => "CALL_nnn"
  | .seVxNn _ _ => "SE_Vx_nn"
  | .sneVxNn _ _ => "SNE_Vx_nn"
  | .seVxVy _ _ _ => "SE_Vx_Vy"
  | .ldVxNn _ _ => "LD_Vx_nn"
  | .addVxNn _ _ => "ADD_Vx_nn"
  | .ldVxVy _ _ => "LD_Vx_Vy"
  | .orVxVy _ _ => "OR_Vx_Vy"
  | .andVxVy _ _ => "AND_Vx_Vy"
  | .xorVxVy _ _ => "XOR_Vx_Vy"
  | .addVxVy _ _ => "ADD_Vx_Vy"
  | .subVxVy _ _ => "SUB_Vx_Vy"
  | .shrVx _ _ => "SHR_Vx"
  | .shlVx _ _ => "SHL_Vx"
  | .sneVxVy _ _ _ => "SNE_Vx_Vy"
  | .ldINnn _ => "LD_I_nnn"
  | .jpV0Nnn _ => "JP_V0_nnn"
  | .rndVxNn _ _ => "RND_Vx_nn"
  | .drwVxVyN _ _ _ => "DRW_Vx_Vy_n"
  | .skpVx _ => "SKP_Vx"
  | .sknpVx _ => "SKNP_Vx"
  | .ldVxDt _ => "LD_Vx_DT"
  | .ldVxK _ => "LD_Vx_K"
  | .ldDtVx _ => "LD_DT_Vx"
  | .ldStVx _ => "LD_ST_Vx"
  | .addIVx _ => "ADD_I_Vx"
  | .ldFVx _ => "LD_F_Vx"
  | .ldBVx _ => "LD_B_Vx"
  | .ldMemIVx _ => "LD__I__Vx"
  | .ldVxMemI _ => "LD_Vx__I"

end Sys2Proof
end

