-- ==== Sys2Proof/Config.lean ====
section
/-! DEFINITION. What the spec leaves to a configuration (00_scope.md rule R6) and the FREE VALUES: constants with no
body, which stand wherever the spec leaves a value unspecified (93_implementation_defined.md U12, U17, U18).
Nothing in Lean can evaluate a free value, so a theorem about the model holds for every one. -/

namespace Sys2Proof

/-- OOB_POLICY (rule R6, decisions D4 to D7): one switch for all bounds points. -/
inductive OobPolicy where
  /-- An access out of bounds raises the fault its rule names (the default). -/
  | fault
  /-- An access out of bounds wraps as its rule says. -/
  | wrap
  deriving DecidableEq, Repr

/-- VF_WRITE_ORDER (rules R6, R121, decision D9): which of flag and result is written first when both go to VF. -/
inductive VfWriteOrder where
  /-- The flag first, then the result, so VF ends as the result (the default). -/
  | flagFirst
  /-- The result first, then the flag, so VF ends as the flag. -/
  | resultFirst
  deriving DecidableEq, Repr

/-- MEM_FILL (rule R6, decision D20): "one byte value, or unspecified". -/
inductive MemFill where
  /-- Every such byte holds `b` at reset. -/
  | byte (b : Byte)
  /-- Each such byte holds a free value of its own at reset, `Config.unfilledByte` of its address. -/
  | unspecified
  deriving DecidableEq, Repr

/-- The parameters of a run (rules R6, R41). No step changes them. The defaults are `Machine.defaultConfig`. -/
structure Config where
  /-- OOB_POLICY. -/
  oobPolicy : OobPolicy
  /-- VF_WRITE_ORDER. -/
  vfWriteOrder : VfWriteOrder
  /-- GLYPH_TABLE: the 80 bytes at addresses 0x000 to 0x04F at reset (rule R57). -/
  glyphTable : Vector Byte 80
  /-- MEM_FILL: what every byte outside the glyph table holds at reset, before any load (rules R6, R42). -/
  memFill : MemFill
  deriving DecidableEq, Repr

/-! ### Free values

Each is applied to the plain counter `State.freeIx`, which advances at every use, but for the first, which is applied
to the address. DESIGN CHOICE: a counter and constants stand for "any value"; safe for a claim about one run, unsafe for
one that compares two runs with equal counters (notes/assumptions/1.md, 2.md, 3.md, 16.md). -/

/-- What the byte at an address holds at reset when MEM_FILL is unspecified (rule R6). -/
opaque Config.unfilledByte : Nat → Byte

/-- RAND (rule R160, U12): the byte the random oracle answers with; under no law. -/
opaque Config.randByte : Nat → Byte

/-- FOP after a fault raised by the fetch itself (rule R181, U17). -/
opaque Config.fetchFaultFop : Nat → Word

/-- V[0..15] after a fault (rule R191, U18). -/
opaque Config.faultedV : Nat → Vector Byte 16

/-- I after a fault (rule R191, U18). -/
opaque Config.faultedI : Nat → Word

/-- PC after a fault (rule R191, U18). -/
opaque Config.faultedPc : Nat → Word

/-- STACK[0..15] after a fault (rule R191, U18). -/
opaque Config.faultedStack : Nat → Vector Word 16

/-- SP after a fault (rule R191, U18). -/
opaque Config.faultedSp : Nat → Fin 17

/-- DT after a fault (rule R191, U18). -/
opaque Config.faultedDt : Nat → Byte

/-- ST after a fault (rule R191, U18). -/
opaque Config.faultedSt : Nat → Byte

/-- FB after a fault (rule R191, U18). -/
opaque Config.faultedFb : Nat → Vector (BitVec 64) 32

/-- DP after a fault (rule R191, U18). -/
opaque Config.faultedDp : Nat → Bool

/-- KC after a fault (rule R191, U18). -/
opaque Config.faultedKc : Nat → Bool

/-- The byte of memory at an address after a fault (rule R191, U18). -/
opaque Config.faultedByte : Nat → Nat → Byte

end Sys2Proof
end

