-- ==== Sys2Proof/Machine/Defaults.lean ====
section
/-! DEFINITION. The default value of every parameter of 00_scope.md rule R6, and the glyph table of 20_memory.md rule
R57. The glyph bytes are the spec's own default, marked there as general knowledge (decision D15). -/

namespace Sys2Proof.Machine

/-- The conventional hexadecimal font of rule R57: digit d is the five bytes from 5 * d. -/
def defaultGlyphTable : Vector Byte 80 :=
  #v[0xF0, 0x90, 0x90, 0x90, 0xF0,  0x20, 0x60, 0x20, 0x20, 0x70,
     0xF0, 0x10, 0xF0, 0x80, 0xF0,  0xF0, 0x10, 0xF0, 0x10, 0xF0,
     0x90, 0x90, 0xF0, 0x10, 0x10,  0xF0, 0x80, 0xF0, 0x10, 0xF0,
     0xF0, 0x80, 0xF0, 0x90, 0xF0,  0xF0, 0x10, 0x20, 0x40, 0x40,
     0xF0, 0x90, 0xF0, 0x90, 0xF0,  0xF0, 0x90, 0xF0, 0x10, 0xF0,
     0xF0, 0x90, 0xF0, 0x90, 0x90,  0xE0, 0x90, 0xE0, 0x90, 0xE0,
     0xF0, 0x80, 0x80, 0x80, 0xF0,  0xE0, 0x90, 0x90, 0x90, 0xE0,
     0xF0, 0x80, 0xF0, 0x80, 0xF0,  0xF0, 0x80, 0xF0, 0x80, 0x80]

/-- The defaults of rule R6: OOB_POLICY = fault, VF_WRITE_ORDER = flag_first, the glyph table of rule R57,
MEM_FILL = 0x00. -/
def defaultConfig : Config where
  oobPolicy := .fault
  vfWriteOrder := .flagFirst
  glyphTable := defaultGlyphTable
  memFill := .byte 0x00#8

end Sys2Proof.Machine
end

