-- ==== Sys2Proof/Machine/State.lean ====
section
/-! DEFINITION. The state of the machine (10_state.md rule R20), its value after reset (rule R42), and the reasons a
step can stop. State is plain data. Beside the spec's tuple it holds the outputs of the last step (rule R39), the
parameters of the run (rule R41, constant), and two fields of the model's own: the counter behind the free values and
the loader's window (70_reset_and_hazards.md rule R204). -/

namespace Sys2Proof.Machine

/-- Memory: a list of (address, byte) pairs in one canonical form (`Memory.wf`). An address not listed reads as what
it holds at reset, `resetByte`. -/
abbrev Memory := List Host.Cell

/-- The six causes of a fault (60_exceptions.md rule R182). -/
inductive Cause where
  /-- Code 1: the fetched word matches no row of the opcode map (rule R183). -/
  | unrecognizedOpcode
  /-- Code 2: a memory access above 0xFFF under OOB_POLICY = fault (rule R184). -/
  | addressOutOfRange
  /-- Code 3: CALL with SP = 16 under OOB_POLICY = fault (rule R185). -/
  | stackOverflow
  /-- Code 4: RET with SP = 0 under OOB_POLICY = fault (rule R186). -/
  | stackUnderflow
  /-- Code 5: a set sprite bit off the grid under OOB_POLICY = fault (rule R187). -/
  | drawOutOfBounds
  /-- Code 6: SKP or SKNP with V[x] > 15 under OOB_POLICY = fault (rule R198). -/
  | keyIndexOutOfRange
  deriving DecidableEq, Repr

/-- Why a step cannot be taken. The spec's own faults are NOT here: raising one is a next state, with HALT and the
fault record set (rule R181). -/
inductive Fault where
  /-- Raised by `step` alone, when HALT = 1: "with HALT = 1 no step is enabled" (rules R90, R97, R191). Safe: the
  hardware takes no step either. -/
  | halted
  deriving DecidableEq, Repr

/-- Why an instruction has no meaning in the model. No arm of `exec` answers with it: all 33 rows are modelled. -/
inductive Refusal where
  /-- The instruction of that mnemonic has no meaning yet; raised by a refused arm of `exec` alone. Safe. -/
  | notModelled (mnemonic : String)
  deriving DecidableEq, Repr

/-- The state of the machine (rule R20). -/
structure State where
  /-- V[0..15], the general registers (rule R21). -/
  v : Vector Byte 16
  /-- I, the index register (rule R23). -/
  i : Word
  /-- PC, the program counter (rules R24, R25). -/
  pc : Word
  /-- STACK[0..15], the call stack slots (rule R26). -/
  stack : Vector Word 16
  /-- SP, the number of return addresses on the stack, 0 to 16 (rule R27). -/
  sp : Fin 17
  /-- DT, the delay timer (rule R28). -/
  dt : Byte
  /-- ST, the sound timer (rule R29). -/
  st : Byte
  /-- FB[0..2047], the framebuffer: 32 rows of 64 cells, cell `y * 64 + x` being bit `x` of row `y` (rule R30). DESIGN
  CHOICE, safe (notes/assumptions/20.md). -/
  fb : Vector (BitVec 64) 32
  /-- DP, the draw-pending flag (rule R31). -/
  dp : Bool
  /-- KC, the key-press-consumed flag: true when no key-press event is latched (rule R32). -/
  kc : Bool
  /-- HALT, set by any fault (rule R33). -/
  halt : Bool
  /-- FCAUSE, the code of the fault (rules R33, R182). -/
  fcause : BitVec 3
  /-- FADDR, the address the faulting instruction was fetched from (rule R33). -/
  faddr : Word
  /-- FOP, the faulting instruction word (rule R33). -/
  fop : Word
  /-- MEM[0..4095] (rule R34). -/
  mem : Memory
  /-- KEY[0..15], the input latch, written by the host alone (rule R36). -/
  key : Vector Bool 16
  /-- KEV, the code of the most recent key-down event, written by the host alone (rule R37). -/
  kev : BitVec 4
  /-- TONE of the last step: an output, not state of the spec (rules R39, R96). DESIGN CHOICE, safe
  (notes/assumptions/14.md). -/
  tone : Bool
  /-- AWAIT of the last step: an output, not state of the spec (rules R39, R164). DESIGN CHOICE, safe
  (notes/assumptions/14.md). -/
  awaiting : Bool
  /-- The parameters of the run (rule R41). No step and no host move changes them. DESIGN CHOICE, safe
  (notes/assumptions/6.md). -/
  cfg : Config
  /-- The model's own: no step has run and no program been loaded since reset, so the host's Load move is enabled
  (rules R195, R204). DESIGN CHOICE, safe (notes/assumptions/5.md). -/
  loadOpen : Bool
  /-- The model's own: how many free values have been used; the next one is the constant of Config applied to it.
  DESIGN CHOICE, safe (notes/assumptions/5.md). -/
  freeIx : Nat
  deriving DecidableEq, Repr

/-- The machine right after RESET under parameters `cfg` (rules R42, R200). KEV, FCAUSE, FADDR and FOP are unspecified
there; this model's value for each is 0: DESIGN CHOICE, unsafe (notes/assumptions/4.md). Memory lists nothing: every
byte reads as `resetByte`. -/
def State.resetWith (cfg : Config) : State where
  v := Vector.replicate 16 0#8
  i := 0#16
  pc := 0x200#16
  stack := Vector.replicate 16 0#16
  sp := 0
  dt := 0#8
  st := 0#8
  fb := Vector.replicate 32 0#64
  dp := false
  kc := true
  halt := false
  fcause := 0#3
  faddr := 0#16
  fop := 0#16
  mem := []
  key := Vector.replicate 16 false
  kev := 0#4
  tone := false
  awaiting := false
  cfg := cfg
  loadOpen := true
  freeIx := 0

/-- The machine right after RESET under the default parameters of rule R6, with no program loaded. -/
def State.reset : State := State.resetWith defaultConfig

/-- What every meaning and every step answers. -/
abbrev StepResult := Host.Outcome State Fault Refusal

end Sys2Proof.Machine
end

