-- ==== Sys2Proof/Machine/Ops.lean ====
section
/-! DEFINITION. The named operations every meaning is written with: registers, memory, the stack, the framebuffer, the
program counter, the one operation that takes a fault (60_exceptions.md rule R181), and the loop. The machine has no
return from a fault (rule R193): only RESET leaves HALT = 1. -/

namespace Sys2Proof.Machine

/-! ### General registers (10_state.md rule R21): sixteen, none hardwired -/

/-- `V[x]`. -/
def readReg (s : State) (x : Nibble) : Byte :=
  s.v[x.toNat]'(by have := x.isLt; omega)

/-- `V[x] <- b`. -/
def writeReg (s : State) (x : Nibble) (b : Byte) : State :=
  { s with v := s.v.set x.toNat b (by have := x.isLt; omega) }

/-- `V[0xF] <- b`: VF, which is V[15] and nothing else (rule R22). -/
def writeVf (s : State) (b : Byte) : State := writeReg s 0xF#4 b

/-! ### Memory (20_memory.md) -/

/-- What address `a` holds at reset, before any load: the glyph table below 0x050, MEM_FILL elsewhere (rules R42, R51,
R57). It is also what an address that memory does not list reads as. -/
def resetByte (cfg : Config) (a : Nat) : Byte :=
  if h : a < 80 then cfg.glyphTable[a]
  else match cfg.memFill with
    | .byte b => b
    | .unspecified => Config.unfilledByte a

/-- The byte at `a` (rule R52), for an address in range. -/
def Memory.get (cfg : Config) : Memory → Nat → Byte
  | [], a => resetByte cfg a
  | (b, w) :: t, a => if a = b then w else Memory.get cfg t a

/-- List `v` at `a`, keeping the addresses rising. -/
def Memory.insert : Memory → Nat → Byte → Memory
  | [], a, v => [(a, v)]
  | (b, w) :: t, a, v =>
    if a < b then (a, v) :: (b, w) :: t
    else if a = b then (a, v) :: t
    else (b, w) :: Memory.insert t a v

/-- Take the entry of `a` out, if there is one. -/
def Memory.erase : Memory → Nat → Memory
  | [], _ => []
  | (b, w) :: t, a => if a = b then t else (b, w) :: Memory.erase t a

/-- Store `v` at `a` (rule R53), for an address in range: the reset value is never listed. -/
def Memory.set (cfg : Config) (m : Memory) (a : Nat) (v : Byte) : Memory :=
  if v = resetByte cfg a then m.erase a else m.insert a v

/-- The canonical form: addresses strictly rising, none above 0xFFF, no entry equal to the reset value. -/
def Memory.wf (cfg : Config) : Memory → Bool
  | [] => true
  | (a, v) :: t =>
    decide (a ≤ 0xFFF) && v != resetByte cfg a && t.all (fun c => decide (a < c.1)) && Memory.wf cfg t

/-- Store the bytes `bs` at `a`, `a + 1`, ..., with no bounds rule: the loader (70_reset_and_hazards.md rule R206). -/
def Memory.setAll (cfg : Config) : Memory → Nat → List Byte → Memory
  | m, _, [] => m
  | m, a, b :: bs => Memory.setAll cfg (Memory.set cfg m a b) (a + 1) bs

/-- The memory whose byte at each address of `as` is `f` of it, and which is at its reset value elsewhere. -/
def Memory.ofFun (cfg : Config) (f : Nat → Byte) : List Nat → Memory
  | [] => []
  | a :: as => Memory.set cfg (Memory.ofFun cfg f as) a (f a)

/-- The 4096 addresses of memory, 0x000 to 0xFFF (rules R50, R51). -/
def allAddresses : List Nat := List.range 4096

/-- MEM[a], for `a` in 0 to 0xFFF. -/
def readByte (s : State) (a : Nat) : Byte := Memory.get s.cfg s.mem a

/-- The bounds rule R54: the address an access at `a` goes to, or the fault it raises. -/
def boundAddress (cfg : Config) (a : Nat) : Except Cause Nat :=
  if a ≤ 0xFFF then .ok a
  else match cfg.oobPolicy with
    | .fault => .error .addressOutOfRange
    | .wrap => .ok (a % 4096)

/-- `MemRead(a, 1)` (rules R52, R54). -/
def memRead (s : State) (a : Nat) : Except Cause Byte :=
  match boundAddress s.cfg a with
  | .ok a' => .ok (readByte s a')
  | .error c => .error c

/-- `MemWrite(a, 1, b)` (rules R53, R54). -/
def memWrite (s : State) (a : Nat) (b : Byte) : Except Cause State :=
  match boundAddress s.cfg a with
  | .ok a' => .ok { s with mem := Memory.set s.cfg s.mem a' b }
  | .error c => .error c

/-- `MemWrite` of each of `bs` in turn at `a`, `a + 1`, ..., in ascending order (rule R59). -/
def storeBytes : List Byte → Nat → State → Except Cause State
  | [], _, s => .ok s
  | b :: bs, a, s =>
    match memWrite s a b with
    | .ok s' => storeBytes bs (a + 1) s'
    | .error c => .error c

/-! ### The stack (10_state.md rules R26, R27; 41_control_transfer.md rules R100, R102) -/

/-- SP after a push: SP + 1 under `fault` (a push at 16 has raised StackOverflow before), modulo 16 under `wrap`.
DEDUCED, safe: what SP = 16 does under `wrap`, where no run reaches it (notes/assumptions/13.md). -/
def spAfterPush (p : OobPolicy) (sp : Fin 17) : Fin 17 :=
  match p with
  | .fault => ⟨min (sp.val + 1) 16, by omega⟩
  | .wrap => ⟨(sp.val + 1) % 16, by omega⟩

/-- `STACK[SP mod 16] <- w`, and SP advanced. -/
def push (s : State) (w : Word) : State :=
  { s with
    stack := s.stack.set (s.sp.val % 16) w (by omega)
    sp := spAfterPush s.cfg.oobPolicy s.sp }

/-- The slot a pop reads: `(SP - 1) mod 16`. -/
def popIndex (sp : Fin 17) : Nat := (sp.val + 15) % 16

/-- `SP <- (SP - 1) mod 16`, then the slot read, then the slot cleared to 0: the popped word and the state after. -/
def pop (s : State) : Word × State :=
  (s.stack[popIndex s.sp]'(by unfold popIndex; omega),
   { s with
     stack := s.stack.set (popIndex s.sp) 0#16 (by unfold popIndex; omega)
     sp := ⟨popIndex s.sp, by unfold popIndex; omega⟩ })

/-! ### The program counter -/

/-- `PC <- w`. -/
def setPc (s : State) (w : Word) : State := { s with pc := w }

/-- `PC <- (PC + 2) mod 65536`: the advance of rule R92, and `Skip` of rule R107. -/
def advancePc (s : State) : State := setPc s (s.pc + 2#16)

/-- `Skip` if the condition holds (rule R107). -/
def skipIf (s : State) (c : Bool) : State := if c then advancePc s else s

/-! ### The framebuffer (rule R30) -/

/-- `FB[k]`: column `k mod 64` of row `k div 64`; there is no cell 2048 or above. -/
def fbCell (s : State) (k : Nat) : Bool :=
  if h : k < 2048 then (s.fb[k / 64]'(by omega)).getLsbD (k % 64) else false

/-- The framebuffer with cell `k` flipped. -/
def flipBit (fb : Vector (BitVec 64) 32) (k : Nat) : Vector (BitVec 64) 32 :=
  if h : k < 2048 then fb.set (k / 64) (fb[k / 64]'(by omega) ^^^ BitVec.twoPow 64 (k % 64)) (by omega) else fb

/-- `FB[k] <- FB[k] ^ 1`. -/
def flipCell (s : State) (k : Nat) : State := { s with fb := flipBit s.fb k }

/-! ### Taking a fault (60_exceptions.md rules R181, R182, R191) -/

/-- The code of a cause (rule R182). -/
def Cause.code : Cause → BitVec 3
  | .unrecognizedOpcode => 1#3
  | .addressOutOfRange => 2#3
  | .stackOverflow => 3#3
  | .stackUnderflow => 4#3
  | .drawOutOfBounds => 5#3
  | .keyIndexOutOfRange => 6#3

/-- MEM after a fault (rule R191, U18): every one of the 4096 bytes is a free value. -/
@[irreducible] def faultedMemory (s : State) : Memory := Memory.ofFun s.cfg (Config.faultedByte s.freeIx) allAddresses

/-- Fault entry (rule R181): HALT set and the fault record written with the address `a` the instruction was fetched
from and its word `op`; TONE and AWAIT are 0. Everything the core owns is unspecified afterwards (rule R191), so each
such field is a free value; the host's KEY and KEV, and the parameters, keep theirs. -/
def enterFault (c : Cause) (a op : Word) (s : State) : State :=
  { s with
    halt := true
    fcause := c.code
    faddr := a
    fop := op
    tone := false
    awaiting := false
    v := Config.faultedV s.freeIx
    i := Config.faultedI s.freeIx
    pc := Config.faultedPc s.freeIx
    stack := Config.faultedStack s.freeIx
    sp := Config.faultedSp s.freeIx
    dt := Config.faultedDt s.freeIx
    st := Config.faultedSt s.freeIx
    fb := Config.faultedFb s.freeIx
    dp := Config.faultedDp s.freeIx
    kc := Config.faultedKc s.freeIx
    mem := faultedMemory s
    freeIx := s.freeIx + 1 }

/-- `raise` inside the rule of instruction `i` (rule R181): PC holds the fetch address plus 2 there (rule R94), and
the fetched word is `i`'s own. -/
def raise (c : Cause) (i : Instr) (s : State) : StepResult :=
  .next (enterFault c (s.pc - 2#16) (encode i) s)

/-- End the rule of instruction `i` that started in `s`: with its result, or with the fault it raised. -/
def conclude (i : Instr) (s : State) : Except Cause State → StepResult
  | .ok t => .next t
  | .error c => raise c i s

/-! ### Loops -/

/-- Do `f k` for each `k` of the list in order, ending at the first fault. -/
def forEach (f : Nat → State → Except Cause State) : List Nat → State → Except Cause State
  | [], s => .ok s
  | k :: ks, s =>
    match f k s with
    | .ok s' => forEach f ks s'
    | .error c => .error c

end Sys2Proof.Machine
end

