-- ==== Sys2Proof/Machine/Cycle.lean ====
section
/-! DEFINITION. What a step does around the instruction (40_cycle.md): fetch, PC advance, the timer tick and the tone.
`Machine/Step.lean` only calls these. -/

namespace Sys2Proof.Machine

/-- A step starts: TONE and AWAIT are 0 unless this step asserts them (10_state.md rule R39), and the loader's window
is closed (70_reset_and_hazards.md rule R204). -/
def beginStep (s : State) : State := { s with tone := false, awaiting := false, loadOpen := false }

/-- `op <- MemRead(PC, 2)` (rules R55, R91): two byte reads, the lower address first; PC + 1 is not reduced modulo
65536 before the bounds rule. -/
def fetch (s : State) : Except Cause Word :=
  match memRead s s.pc.toNat with
  | .error c => .error c
  | .ok hi =>
    match memRead s (s.pc.toNat + 1) with
    | .error c => .error c
    | .ok lo => .ok (wordOfBytes hi lo)

/-- A timer counts down by 1 while positive (rule R95). -/
def countDown (b : Byte) : Byte := if b = 0#8 then 0#8 else b - 1#8

/-- TimerTick (rules R95, R96): TONE in exactly the step whose tick takes ST from 1 to 0. -/
def timerTick (s : State) : State :=
  { s with dt := countDown s.dt, st := countDown s.st, tone := s.st == 1#8 }

/-- The end of a step (rules R90, R97): the tick, unless the instruction raised a fault. -/
def finishStep : StepResult → StepResult
  | .next t => .next (if t.halt then t else timerTick t)
  | .fault f => .fault f
  | .refused r => .refused r

/-- A fault of the fetch itself (rule R181): FADDR is PC, FOP a free value (U17). -/
def fetchFault (c : Cause) (s : State) : StepResult :=
  .next (enterFault c s.pc (Config.fetchFaultFop s.freeIx) s)

/-- A word that matches no row (rules R94, R183), raised after the PC advance with the fetch address in FADDR. -/
def illegalFault (op : Word) (s : State) : StepResult :=
  .next (enterFault .unrecognizedOpcode (s.pc - 2#16) op s)

/-- `op` stored at PC and PC + 1, big-endian (rule R70), where the next fetch reads it; nothing where PC is out of
range and OOB_POLICY = fault. -/
def placeAtPc (s : State) (op : Word) : State :=
  match storeBytes (bytesOfWord op) s.pc.toNat s with
  | .ok t => t
  | .error _ => s

end Sys2Proof.Machine
end

