-- ==== Sys2Proof/Machine/Flags.lean ====
section
/-! DEFINITION. Every flag the machine computes. The one flag register is VF (10_state.md rule R22); six instructions
write it. -/

namespace Sys2Proof.Machine

/-- A flag as VF holds it: 1 or 0. -/
def flagByte (f : Bool) : Byte := if f then 1#8 else 0#8

/-- Carry out of the 8-bit sum (42_load_alu.md rule R128). -/
def carryOut (vx vy : Byte) : Bool := decide (vx.toNat + vy.toNat > 255)

/-- Borrow (rule R129): true exactly when vx < vy. -/
def borrowOut (vx vy : Byte) : Bool := decide (vx.toNat < vy.toNat)

/-- The bit SHR shifts out (rule R130). -/
def shiftedOutRight (vx : Byte) : Bool := vx.getLsbD 0

/-- The bit SHL shifts out (rule R131). -/
def shiftedOutLeft (vx : Byte) : Bool := vx.getLsbD 7

/-- The flag of ADD I,Vx: the unreduced sum exceeds 0xFFF (43_index_memory.md rule R141). -/
def indexOverflow (i : Word) (vx : Byte) : Bool := decide (i.toNat + vx.toNat > 0xFFF)

/-- `WriteResultAndFlag(x, r, f)` (42_load_alu.md rule R121): the later write wins when x = 0xF. -/
def writeResultAndFlag (s : State) (x : Nibble) (r : Byte) (f : Bool) : State :=
  match s.cfg.vfWriteOrder with
  | .flagFirst => writeReg (writeVf s (flagByte f)) x r
  | .resultFirst => writeVf (writeReg s x r) (flagByte f)

end Sys2Proof.Machine
end

