-- ==== Sys2Proof/Machine/Alu.lean ====
section
/-! DEFINITION. Register load and ALU instructions (42_load_alu.md). Sources are read before any write (rule R120). -/

namespace Sys2Proof.Machine

/-- LD Vx,nn (rule R122). -/
def execLdVxNn (x : Nibble) (nn : Byte) (s : State) : StepResult := .next (writeReg s x nn)

/-- ADD Vx,nn (rule R123): modulo 256, no flag. -/
def execAddVxNn (x : Nibble) (nn : Byte) (s : State) : StepResult :=
  .next (writeReg s x (readReg s x + nn))

/-- LD Vx,Vy (rule R124). -/
def execLdVxVy (x y : Nibble) (s : State) : StepResult := .next (writeReg s x (readReg s y))

/-- OR Vx,Vy (rule R125). -/
def execOrVxVy (x y : Nibble) (s : State) : StepResult :=
  .next (writeReg s x (readReg s x ||| readReg s y))

/-- AND Vx,Vy (rule R126). -/
def execAndVxVy (x y : Nibble) (s : State) : StepResult :=
  .next (writeReg s x (readReg s x &&& readReg s y))

/-- XOR Vx,Vy (rule R127). -/
def execXorVxVy (x y : Nibble) (s : State) : StepResult :=
  .next (writeReg s x (readReg s x ^^^ readReg s y))

/-- ADD Vx,Vy (rule R128): VF is the carry out. -/
def execAddVxVy (x y : Nibble) (s : State) : StepResult :=
  .next (writeResultAndFlag s x (readReg s x + readReg s y) (carryOut (readReg s x) (readReg s y)))

/-- SUB Vx,Vy (rule R129): VF = 1 means a borrow. -/
def execSubVxVy (x y : Nibble) (s : State) : StepResult :=
  .next (writeResultAndFlag s x (readReg s x - readReg s y) (borrowOut (readReg s x) (readReg s y)))

/-- SHR Vx (rule R130): logical; `y` is ignored. -/
def execShrVx (x _y : Nibble) (s : State) : StepResult :=
  .next (writeResultAndFlag s x (readReg s x >>> 1) (shiftedOutRight (readReg s x)))

/-- SHL Vx (rule R131): modulo 256; `y` is ignored. -/
def execShlVx (x _y : Nibble) (s : State) : StepResult :=
  .next (writeResultAndFlag s x (readReg s x <<< 1) (shiftedOutLeft (readReg s x)))

end Sys2Proof.Machine
end

