-- ==== Sys2Proof/Machine/Operands.lean ====
section
/-! DEFINITION. Operand forms: the immediates (30_encoding.md rule R73), the one addressing mode (43_index_memory.md
rule R146), the glyph address, the decimal digits, the sprite bit and the grid bound, and the key index. -/

namespace Sys2Proof.Machine

/-- `nnn` as a 16-bit address, zero-extended (rule R73). -/
def addrOf (nnn : Addr12) : Word := nnn.zeroExtend 16

/-- The effective address I + k, on unbounded integers (rule R146). -/
def indexAddress (s : State) (k : Nat) : Nat := s.i.toNat + k

/-- The glyph address `vx * 5`, at most 1275 (rule R142). -/
def glyphAddress (vx : Byte) : Word := BitVec.ofNat 16 (vx.toNat * 5)

/-- The hundreds, tens and ones of a byte, most significant first (rule R143). -/
def decimalDigits (vx : Byte) : List Byte :=
  [BitVec.ofNat 8 (vx.toNat / 100), BitVec.ofNat 8 (vx.toNat / 10 % 10), BitVec.ofNat 8 (vx.toNat % 10)]

/-- `V[0]` to `V[x]`, inclusive, in ascending order (rule R144). -/
def regsUpTo (s : State) (x : Nibble) : List Byte :=
  (List.range (x.toNat + 1)).map fun k => readReg s (BitVec.ofNat 4 k)

/-- The sprite bit of column `col`, 0 to 7: bit 7 is the leftmost (44_display.md rule R153). -/
def spriteBit (b : Byte) (col : Nat) : Bool := b.getLsbD (7 - col)

/-- `Bound` (rule R152): the cell of column `px`, row `py`, or the fault. -/
def boundPixel (cfg : Config) (px py : Nat) : Except Cause Nat :=
  if px ≤ 63 ∧ py ≤ 31 then .ok (py * 64 + px)
  else match cfg.oobPolicy with
    | .fault => .error .drawOutOfBounds
    | .wrap => .ok (py % 32 * 64 + px % 64)

/-- `KEY[k mod 16]`. -/
def readKey (s : State) (k : Nat) : Bool := s.key[k % 16]'(by omega)

/-- `KeyCell` (45_input_timers_random.md rule R168): the latch cell V[x] names, or the fault. -/
def keyCell (s : State) (vx : Byte) : Except Cause Bool :=
  if vx.toNat ≤ 15 then .ok (readKey s vx.toNat)
  else match s.cfg.oobPolicy with
    | .fault => .error .keyIndexOutOfRange
    | .wrap => .ok (readKey s (vx.toNat % 16))

/-- `Rand()` (rule R160): one draw of the oracle, and the state with it consumed. -/
def drawRandom (s : State) : Byte × State :=
  (Config.randByte s.freeIx, { s with freeIx := s.freeIx + 1 })

end Sys2Proof.Machine
end

