-- ==== Sys2Proof/Machine/Control.lean ====
section
/-! DEFINITION. Control transfer (41_control_transfer.md). PC is already advanced when a meaning runs (40_cycle.md rule
R92), so `s.pc - 2` is the address of the instruction itself. -/

namespace Sys2Proof.Machine

/-- RET (rule R100). -/
def execRet (ign : Byte) (s : State) : StepResult :=
  if s.sp.val = 0 ∧ s.cfg.oobPolicy = .fault then raise .stackUnderflow (.ret ign) s
  else .next (setPc (pop s).2 ((pop s).1 + 2#16))

/-- JP nnn (rule R101). -/
def execJpNnn (nnn : Addr12) (s : State) : StepResult := .next (setPc s (addrOf nnn))

/-- CALL nnn (rule R102): the pushed word is the address of this CALL. -/
def execCallNnn (nnn : Addr12) (s : State) : StepResult :=
  if s.sp.val = 16 ∧ s.cfg.oobPolicy = .fault then raise .stackOverflow (.callNnn nnn) s
  else .next (setPc (push s (s.pc - 2#16)) (addrOf nnn))

/-- SE Vx,nn (rule R103). -/
def execSeVxNn (x : Nibble) (nn : Byte) (s : State) : StepResult :=
  .next (skipIf s (readReg s x == nn))

/-- SNE Vx,nn (rule R104). -/
def execSneVxNn (x : Nibble) (nn : Byte) (s : State) : StepResult :=
  .next (skipIf s (readReg s x != nn))

/-- SE Vx,Vy (rule R105); `n` is ignored. -/
def execSeVxVy (x y _n : Nibble) (s : State) : StepResult :=
  .next (skipIf s (readReg s x == readReg s y))

/-- SNE Vx,Vy (rule R106); `n` is ignored. -/
def execSneVxVy (x y _n : Nibble) (s : State) : StepResult :=
  .next (skipIf s (readReg s x != readReg s y))

/-- JP V0,nnn (rule R109): the sum is not reduced to 12 bits. -/
def execJpV0Nnn (nnn : Addr12) (s : State) : StepResult :=
  .next (setPc s (addrOf nnn + (readReg s 0#4).zeroExtend 16))

end Sys2Proof.Machine
end

