-- ==== Sys2Proof/Machine/Display.lean ====
section
/-! DEFINITION. The display instructions (44_display.md). -/

namespace Sys2Proof.Machine

/-- `DP <- 1`. -/
def setDp (s : State) : State := { s with dp := true }

/-- CLS (rule R150): every cell 0, DP set whether or not a cell changed; bits 11:4 are ignored. -/
def execCls (_ign : Byte) (s : State) : StepResult := .next (setDp { s with fb := Vector.replicate 32 0#64 })

/-- One set sprite bit lands on cell `k` (rule R151): a collision sets VF, and the cell is flipped. -/
def plot (s : State) (k : Nat) : State :=
  flipCell (if fbCell s k then writeVf s 1#8 else s) k

/-- Column `col` of a sprite row `b` drawn at `(xs, py)`: a bit of 0 touches nothing (rules R151, R152). -/
def drawColumn (b : Byte) (xs py : Nat) (col : Nat) (s : State) : Except Cause State :=
  if spriteBit b col then
    match boundPixel s.cfg (xs + col) py with
    | .ok k => .ok (plot s k)
    | .error c => .error c
  else .ok s

/-- Row `row` of the sprite: its byte is read, then its columns drawn left to right (rules R151, R189). -/
def drawRow (xs ys : Nat) (row : Nat) (s : State) : Except Cause State :=
  match memRead s (indexAddress s row) with
  | .ok b => forEach (drawColumn b xs (ys + row)) (List.range 8) s
  | .error c => .error c

/-- DRW Vx,Vy,n (rule R151's pseudocode; notes/assumptions/17.md, DEDUCED): V[x] and V[y] are read before VF is
cleared; DP is set at the end in any case. -/
def execDrwVxVyN (x y n : Nibble) (s : State) : StepResult :=
  conclude (.drwVxVyN x y n) s
    (match forEach (drawRow (readReg s x).toNat (readReg s y).toNat) (List.range n.toNat) (writeVf s 0#8) with
      | .ok t => .ok (setDp t)
      | .error c => .error c)

end Sys2Proof.Machine
end

