-- ==== Sys2Proof/Machine/IndexMem.lean ====
section
/-! DEFINITION. The index register, loads and stores (43_index_memory.md). No access changes I (rule R146). -/

namespace Sys2Proof.Machine

/-- `I <- w`. -/
def setI (s : State) (w : Word) : State := { s with i := w }

/-- LD I,nnn (rule R140). -/
def execLdINnn (nnn : Addr12) (s : State) : StepResult := .next (setI s (addrOf nnn))

/-- ADD I,Vx (rule R141): modulo 65536, not masked to 12 bits; VF is 1 if the unreduced sum exceeds 0xFFF. -/
def execAddIVx (x : Nibble) (s : State) : StepResult :=
  .next (writeVf (setI s (s.i + (readReg s x).zeroExtend 16)) (flagByte (indexOverflow s.i (readReg s x))))

/-- LD F,Vx (rule R142): V[x] is not masked to its low nibble. -/
def execLdFVx (x : Nibble) (s : State) : StepResult := .next (setI s (glyphAddress (readReg s x)))

/-- LD B,Vx (rule R143): hundreds at I, tens at I + 1, ones at I + 2. -/
def execLdBVx (x : Nibble) (s : State) : StepResult :=
  conclude (.ldBVx x) s (storeBytes (decimalDigits (readReg s x)) (indexAddress s 0) s)

/-- LD [I],Vx (rule R144): V[0] to V[x], inclusive, from I upward. -/
def execLdMemIVx (x : Nibble) (s : State) : StepResult :=
  conclude (.ldMemIVx x) s (storeBytes (regsUpTo s x) (indexAddress s 0) s)

/-- `V[k] <- MemRead(I + k, 1)`. -/
def loadReg (k : Nat) (s : State) : Except Cause State :=
  match memRead s (indexAddress s k) with
  | .ok b => .ok (writeReg s (BitVec.ofNat 4 k) b)
  | .error c => .error c

/-- LD Vx,[I] (rule R145): V[0] to V[x], inclusive, from I upward. -/
def execLdVxMemI (x : Nibble) (s : State) : StepResult :=
  conclude (.ldVxMemI x) s (forEach loadReg (List.range (x.toNat + 1)) s)

end Sys2Proof.Machine
end

