-- ==== Sys2Proof/Machine/InputTimers.lean ====
section
/-! DEFINITION. Random, keypad and timer instructions (45_input_timers_random.md). -/

namespace Sys2Proof.Machine

/-- RND Vx,nn (rule R167): one draw, even when nn = 0. -/
def execRndVxNn (x : Nibble) (nn : Byte) (s : State) : StepResult :=
  .next (writeReg (drawRandom s).2 x ((drawRandom s).1 &&& nn))

/-- SKP Vx (rule R161). -/
def execSkpVx (x : Nibble) (s : State) : StepResult :=
  conclude (.skpVx x) s
    (match keyCell s (readReg s x) with
      | .ok d => .ok (skipIf s d)
      | .error c => .error c)

/-- SKNP Vx (rule R162). -/
def execSknpVx (x : Nibble) (s : State) : StepResult :=
  conclude (.sknpVx x) s
    (match keyCell s (readReg s x) with
      | .ok d => .ok (skipIf s (!d))
      | .error c => .error c)

/-- LD Vx,DT (rule R163): DT before this step's tick. -/
def execLdVxDt (x : Nibble) (s : State) : StepResult := .next (writeReg s x s.dt)

/-- LD Vx,K (rule R164): with no event latched PC is rewound and AWAIT asserted; else the event is consumed. -/
def execLdVxK (x : Nibble) (s : State) : StepResult :=
  if s.kc then .next { setPc s (s.pc - 2#16) with awaiting := true }
  else .next { writeReg s x (s.kev.zeroExtend 8) with kc := true }

/-- LD DT,Vx (rule R165). -/
def execLdDtVx (x : Nibble) (s : State) : StepResult := .next { s with dt := readReg s x }

/-- LD ST,Vx (rule R166). -/
def execLdStVx (x : Nibble) (s : State) : StepResult := .next { s with st := readReg s x }

end Sys2Proof.Machine
end

