-- ==== Sys2Proof/Machine/Step.lean ====
section
/-! DEFINITION. One step of the core: one fetch-execute cycle (40_cycle.md rule R90). -/

namespace Sys2Proof.Machine

/-- One step (rule R90). It is enabled iff HALT = 0 (rule R97). A fault the spec describes is a next state with HALT
set (60_exceptions.md rule R181). -/
def step (s : State) : Host.Outcome State Fault Refusal :=
  if s.halt then .fault .halted
  else
    match fetch (beginStep s) with
    | .error c => fetchFault c (beginStep s)
    | .ok op =>
      match decode op with
      | .error _ => illegalFault op (advancePc (beginStep s))
      | .ok i => finishStep (exec i (advancePc (beginStep s)))

/-- `s` with the instruction word of a numbered table row stored where the next step fetches. -/
def State.withFetchWord (s : State) (nbits w : Nat) : State := placeAtPc s (tableWord nbits w)

end Sys2Proof.Machine
end

