-- ==== Sys2Proof/Machine/System.lean ====
section
/-! DEFINITION. The second agent, the host (00_scope.md rule R7): its moves (60_exceptions.md rule R195), each atomic
and between two steps of the core, and runs in which steps and moves alternate in any order. -/

namespace Sys2Proof.Machine

/-- A move of the host (rule R195). -/
inductive HostMove where
  /-- RESET. -/
  | reset
  /-- The loader copies PROGRAM into memory (70_reset_and_hazards.md rule R206). -/
  | load (program : List Byte)
  /-- `setKey(k, pressed)`. -/
  | keyDown (k : Nibble)
  /-- `setKey(k, released)`. -/
  | keyUp (k : Nibble)
  /-- The renderer reads the frame and clears DP. -/
  | render
  /-- The host reads the outputs. -/
  | observe
  /-- The host makes no further step. -/
  | stop
  deriving DecidableEq, Repr

/-- The longest program that fits, 0x200 to 0xFFF (rule R206). -/
def maxProgramLength : Nat := 3584

/-- Load(PROGRAM) (rule R206): bytes from 0x200 upward; the window is then closed (rule R204). -/
def loadProgram (s : State) (program : List Byte) : State :=
  { s with mem := Memory.setAll s.cfg s.mem 0x200 program, loadOpen := false }

/-- KeyDown(k) (rule R195): `KEY[k] <- 1; KEV <- k; KC <- 0`. -/
def keyDown (s : State) (k : Nibble) : State :=
  { s with key := s.key.set k.toNat true (by have := k.isLt; omega), kev := k, kc := false }

/-- KeyUp(k) (rule R195): `KEY[k] <- 0`. -/
def keyUp (s : State) (k : Nibble) : State :=
  { s with key := s.key.set k.toNat false (by have := k.isLt; omega) }

/-- RESET during a run (rule R42). The parameters stay, and the free values already used are not used again: DESIGN
CHOICE, safe (notes/assumptions/5.md). -/
def resetAgain (s : State) : State := { State.resetWith s.cfg with freeIx := s.freeIx }

/-- What a move does to the state, or `none` where it is not enabled (rule R195). -/
def hostMove : HostMove → State → Option State
  | .reset, s => some (resetAgain s)
  | .load program, s =>
    if s.loadOpen = true ∧ program.length ≤ maxProgramLength then some (loadProgram s program) else none
  | .keyDown k, s => some (keyDown s k)
  | .keyUp k, s => some (keyUp s k)
  | .render, s => if s.dp then some { s with dp := false } else none
  | .observe, s => some s
  | .stop, s => some s

/-- What the host reads in an Observe move (rules R38, R195). -/
structure Observation where
  /-- DP. -/
  dp : Bool
  /-- TONE of the last step. -/
  tone : Bool
  /-- AWAIT of the last step. -/
  awaiting : Bool
  /-- HALT. -/
  halt : Bool
  /-- FCAUSE, FADDR and FOP, where HALT = 1 gives them a meaning (rule R33). -/
  record : Option (BitVec 3 × Word × Word)
  deriving DecidableEq, Repr

/-- The answer to an Observe move. DESIGN CHOICE, safe: no record while HALT = 0 (notes/assumptions/19.md). -/
def observe (s : State) : Observation where
  dp := s.dp
  tone := s.tone
  awaiting := s.awaiting
  halt := s.halt
  record := if s.halt then some (s.fcause, s.faddr, s.fop) else none

/-- The frame a Render move reads: the cell of column `x`, row `y` (10_state.md rule R30). -/
def getPixel (s : State) (x y : Nat) : Bool := fbCell s (y * 64 + x)

/-- One event of a run: a step of the core or a move of the host. -/
inductive Event where
  /-- A STEP. -/
  | step
  /-- A host move. -/
  | host (m : HostMove)
  deriving DecidableEq, Repr

/-- Run a list of events; `none` where a move is not enabled, a step is not enabled (HALT = 1), or something follows a
Stop. -/
def runEvents : List Event → State → Option State
  | [], s => some s
  | .step :: es, s =>
    match step s with
    | .next t => runEvents es t
    | .fault _ => none
    | .refused _ => none
  | .host m :: es, s =>
    if m = .stop ∧ es ≠ [] then none
    else
      match hostMove m s with
      | some t => runEvents es t
      | none => none

/-- `n` steps of the core with no host move between them; `none` where a step is not enabled. -/
def runSteps : Nat → State → Option State
  | 0, s => some s
  | n + 1, s =>
    match step s with
    | .next t => runSteps n t
    | .fault _ => none
    | .refused _ => none

/-- The launch of a run (rule R204): RESET under parameters `cfg`, then Load of the program. -/
def launch (cfg : Config) (program : List Byte) : Option State :=
  hostMove (.load program) (State.resetWith cfg)

end Sys2Proof.Machine
end

