-- ==== Sys2Proof/Safety.lean ====
section
/-! DEFINITION. The terms claims are stated in: what a step leaves unchanged, what a fault leaves, the invariant of the
machine, when a program has finished, and what a sprite covers. -/

namespace Sys2Proof.Machine

/-! ### Frames -/

/-- The parts of the state, for saying which of them an instruction may change. -/
inductive Part where
  | v | i | pc | stack | sp | dt | st | fb | dp | kc | halt | fcause | faddr | fop | mem | key | kev | tone | awaiting
  | cfg | loadOpen | freeIx
  deriving DecidableEq, Repr

/-- The part is the same in both states. For memory: the data, and every byte read. -/
def Part.same (s t : State) : Part → Prop
  | .v => ∀ x, readReg t x = readReg s x
  | .i => t.i = s.i
  | .pc => t.pc = s.pc
  | .stack => t.stack = s.stack
  | .sp => t.sp = s.sp
  | .dt => t.dt = s.dt
  | .st => t.st = s.st
  | .fb => t.fb = s.fb
  | .dp => t.dp = s.dp
  | .kc => t.kc = s.kc
  | .halt => t.halt = s.halt
  | .fcause => t.fcause = s.fcause
  | .faddr => t.faddr = s.faddr
  | .fop => t.fop = s.fop
  | .mem => t.mem = s.mem ∧ ∀ a, readByte t a = readByte s a
  | .key => t.key = s.key
  | .kev => t.kev = s.kev
  | .tone => t.tone = s.tone
  | .awaiting => t.awaiting = s.awaiting
  | .cfg => t.cfg = s.cfg
  | .loadOpen => t.loadOpen = s.loadOpen
  | .freeIx => t.freeIx = s.freeIx

/-- Every part but those listed is unchanged from `s` to `t`. -/
def Frame (changed : List Part) (s t : State) : Prop := ∀ p, p ∉ changed → p.same s t

/-- Every general register but those listed is unchanged. -/
def RegsExcept (xs : List Nibble) (s t : State) : Prop := ∀ r, r ∉ xs → readReg t r = readReg s r

/-- Nothing changes but general register `x`, which ends as `b`. -/
def OnlyReg (x : Nibble) (b : Byte) (s t : State) : Prop :=
  readReg t x = b ∧ RegsExcept [x] s t ∧ Frame [.v] s t

/-- Nothing changes but PC, which ends as `w`. -/
def OnlyPc (w : Word) (s t : State) : Prop := t.pc = w ∧ Frame [.pc] s t

/-- The result `r` and the flag `f` of an instruction with destination Vx (42_load_alu.md rule R121): for x = 0xF the
later of the two writes stands. Nothing else changes. -/
def ResultAndFlag (x : Nibble) (r f : Byte) (s t : State) : Prop :=
  (x ≠ 0xF#4 → readReg t x = r ∧ readReg t 0xF#4 = f) ∧
  (x = 0xF#4 → s.cfg.vfWriteOrder = .flagFirst → readReg t 0xF#4 = r) ∧
  (x = 0xF#4 → s.cfg.vfWriteOrder = .resultFirst → readReg t 0xF#4 = f) ∧
  RegsExcept [x, 0xF#4] s t ∧ Frame [.v] s t

/-! ### What each instruction writes: the tables of 10_state.md rules R22, R35 and R50 -/

/-- The parts of the state an instruction may write when it completes. -/
def changedParts : Instr → List Part
  | .cls _ => [.fb, .dp]
  | .ret _ => [.pc, .sp, .stack]
  | .jpNnn _ => [.pc]
  | .callNnn _ => [.pc, .sp, .stack]
  | .seVxNn _ _ => [.pc]
  | .sneVxNn _ _ => [.pc]
  | .seVxVy _ _ _ => [.pc]
  | .ldVxNn _ _ => [.v]
  | .addVxNn _ _ => [.v]
  | .ldVxVy _ _ => [.v]
  | .orVxVy _ _ => [.v]
  | .andVxVy _ _ => [.v]
  | .xorVxVy _ _ => [.v]
  | .addVxVy _ _ => [.v]
  | .subVxVy _ _ => [.v]
  | .shrVx _ _ => [.v]
  | .shlVx _ _ => [.v]
  | .sneVxVy _ _ _ => [.pc]
  | .ldINnn _ => [.i]
  | .jpV0Nnn _ => [.pc]
  | .rndVxNn _ _ => [.v, .freeIx]
  | .drwVxVyN _ _ _ => [.v, .fb, .dp]
  | .skpVx _ => [.pc]
  | .sknpVx _ => [.pc]
  | .ldVxDt _ => [.v]
  | .ldVxK _ => [.v, .pc, .kc, .awaiting]
  | .ldDtVx _ => [.dt]
  | .ldStVx _ => [.st]
  | .addIVx _ => [.i, .v]
  | .ldFVx _ => [.i]
  | .ldBVx _ => [.mem]
  | .ldMemIVx _ => [.mem]
  | .ldVxMemI _ => [.v]

/-- The instruction writes VF as a flag: the six of rule R22. -/
def setsFlag : Instr → Bool
  | .addVxVy _ _ | .subVxVy _ _ | .shrVx _ _ | .shlVx _ _ | .addIVx _ | .drwVxVyN _ _ _ => true
  | .cls _ | .ret _ | .jpNnn _ | .callNnn _ | .seVxNn _ _ | .sneVxNn _ _ | .seVxVy _ _ _ | .ldVxNn _ _
  | .addVxNn _ _ | .ldVxVy _ _ | .orVxVy _ _ | .andVxVy _ _ | .xorVxVy _ _ | .sneVxVy _ _ _ | .ldINnn _ | .jpV0Nnn _
  | .rndVxNn _ _ | .skpVx _ | .sknpVx _ | .ldVxDt _ | .ldVxK _ | .ldDtVx _ | .ldStVx _ | .ldFVx _ | .ldBVx _
  | .ldMemIVx _ | .ldVxMemI _ => false

/-- The general registers an instruction names as destinations (rule R21), the flag apart. -/
def destinations : Instr → List Nibble
  | .ldVxNn x _ | .addVxNn x _ | .ldVxVy x _ | .orVxVy x _ | .andVxVy x _ | .xorVxVy x _ | .addVxVy x _
  | .subVxVy x _ | .shrVx x _ | .shlVx x _ | .rndVxNn x _ | .ldVxDt x | .ldVxK x => [x]
  | .ldVxMemI x => (List.range (x.toNat + 1)).map (BitVec.ofNat 4)
  | .cls _ | .ret _ | .jpNnn _ | .callNnn _ | .seVxNn _ _ | .sneVxNn _ _ | .seVxVy _ _ _ | .sneVxVy _ _ _ | .ldINnn _
  | .jpV0Nnn _ | .drwVxVyN _ _ _ | .skpVx _ | .sknpVx _ | .ldDtVx _ | .ldStVx _ | .addIVx _ | .ldFVx _ | .ldBVx _
  | .ldMemIVx _ => []

/-! ### Faults -/

/-- `t` is `s` after fault `c` of the word `op` fetched from `a` (60_exceptions.md rules R181, R191): the record, and
the parts that are not the core's to lose. Nothing is said of the rest, which is unspecified. -/
def Faulted (c : Cause) (a op : Word) (s t : State) : Prop :=
  t.halt = true ∧ t.fcause = c.code ∧ t.faddr = a ∧ t.fop = op ∧ t.tone = false ∧ t.awaiting = false ∧
  Frame [.v, .i, .pc, .stack, .sp, .dt, .st, .fb, .dp, .kc, .halt, .fcause, .faddr, .fop, .mem, .tone, .awaiting,
    .loadOpen, .freeIx] s t

/-- The `n` addresses `a` to `a + n - 1` are all accessible: in range, or wrapped (20_memory.md rule R54). -/
def InRange (cfg : Config) (a n : Nat) : Prop := cfg.oobPolicy = .wrap ∨ n = 0 ∨ a + n - 1 ≤ 0xFFF

/-! ### The invariant -/

/-- What every step and every host move keeps. -/
structure Invariant (s : State) : Prop where
  /-- Memory is in its canonical form: 4096 bytes, no address above 0xFFF. -/
  memWf : Memory.wf s.cfg s.mem = true
  /-- Under `wrap` SP is a 4-bit counter (41_control_transfer.md rule R102). -/
  spWrap : s.halt = false → s.cfg.oobPolicy = .wrap → s.sp.val ≤ 15
  /-- A halted core has one of the six causes (60_exceptions.md rule R182). -/
  causeLegal : s.halt = true → 1 ≤ s.fcause.toNat ∧ s.fcause.toNat ≤ 6
  /-- Under `wrap` only UnrecognizedOpcode exists (rule R182). -/
  causeWrap : s.halt = true → s.cfg.oobPolicy = .wrap → s.fcause = Cause.unrecognizedOpcode.code
  /-- A tone sounds only in a completed step that took ST to 0 (40_cycle.md rule R96). -/
  toneAtZero : s.tone = true → s.st = 0#8 ∧ s.halt = false
  /-- AWAIT is asserted only by a completed step (10_state.md rule R39). -/
  awaitRuns : s.awaiting = true → s.halt = false

/-! ### The end of a run, and runs of steps -/

/-- The convention of rule R197: the core is about to fetch, from address `a`, a jump to `a`. -/
def HasFinished (s : State) : Prop :=
  s.halt = false ∧ ∃ nnn : Addr12, addrOf nnn = s.pc ∧ fetch s = .ok (wordNNN 0x1#4 nnn)

/-- The instruction the next step executes: the fetched word, decoded. -/
def nextInstr (s : State) : Option Instr :=
  match fetch s with
  | .ok op => decodeWord? op
  | .error _ => none

/-- In the first `n` steps from `s` no executed instruction satisfies `P`. -/
def NoneInRun (P : Instr → Prop) (n : Nat) (s : State) : Prop :=
  ∀ m, m < n → ∀ u, runSteps m s = some u → ∀ i, nextInstr u = some i → ¬ P i

/-! ### Sprites (44_display.md rules R151 to R153) -/

/-- Row `row` of the sprite at I has its bit of column `col` set: bit 7 is column 0. -/
def SpriteSet (s : State) (row col : Nat) : Prop :=
  (readByte s ((s.i.toNat + row) % 4096)).getLsbD (7 - col) = true

/-- The cell of that bit for a sprite drawn at (V[x], V[y]), each coordinate taken modulo the grid. -/
def spriteTarget (s : State) (x y : Nibble) (row col : Nat) : Nat :=
  ((readReg s y).toNat + row) % 32 * 64 + ((readReg s x).toNat + col) % 64

/-- Row `row` can be drawn under OOB_POLICY = fault: its byte is in range, and its set bits are on the grid. -/
def RowFits (s : State) (x y : Nibble) (row : Nat) : Prop :=
  s.i.toNat + row ≤ 0xFFF ∧
  ∀ col, col < 8 → SpriteSet s row col → (readReg s x).toNat + col ≤ 63 ∧ (readReg s y).toNat + row ≤ 31

/-- The draw raises no fault. -/
def DrawFits (s : State) (x y n : Nibble) : Prop :=
  s.cfg.oobPolicy = .wrap ∨ ∀ row, row < n.toNat → RowFits s x y row

/-- Some set bit of the sprite lands on cell `k`. -/
def Covers (s : State) (x y n : Nibble) (k : Nat) : Prop :=
  ∃ row col, row < n.toNat ∧ col < 8 ∧ SpriteSet s row col ∧ spriteTarget s x y row col = k

end Sys2Proof.Machine
end

