-- ==== Sys2Proof/Certificates/Slice0/Obligations.lean ====
section
/-! DEFINITION. The statements for the provers. Each docstring names the rule of spec/ it formalises. A free value of
`Config` stands in a statement for every value; a premise `Memory.wf` is the invariant `Invariant` states on its own. -/

open Sys2Proof Sys2Proof.Machine

/-! ### Encoding (30_encoding.md) -/

/-- Rule R71: the five operand fields, as the spec's shifts and masks of `op`. -/
def Obligations.FieldsAreShiftsAndMasks : Prop :=
  ∀ op : Word,
    (fieldH op).toNat = op.toNat / 4096 ∧
    (fieldX op).toNat = op.toNat / 256 % 16 ∧
    (fieldY op).toNat = op.toNat / 16 % 16 ∧
    (fieldN op).toNat = op.toNat % 16 ∧
    (fieldNn op).toNat = op.toNat % 256 ∧
    (fieldNnn op).toNat = op.toNat % 4096 ∧
    fieldNn op = fieldY op ++ fieldN op ∧
    fieldNnn op = fieldX op ++ fieldY op ++ fieldN op

/-- Words written out from rule R75's patterns decode to the instructions they stand for, one or more per family.
Rests on the spec's own decisions D10 to D12. -/
def Obligations.SampleWordsDecode : Prop :=
  decode 0x00E0#16 = .ok (.cls 0x0E#8) ∧ decode 0x00EE#16 = .ok (.ret 0x0E#8) ∧
  decode 0x1234#16 = .ok (.jpNnn 0x234#12) ∧ decode 0x3A42#16 = .ok (.seVxNn 0xA#4 0x42#8) ∧
  decode 0x8127#16 = .error (.unrecognizedOpcode 0x8127#16) ∧ decode 0x812E#16 = .ok (.shlVx 1#4 2#4) ∧
  decode 0xD125#16 = .ok (.drwVxVyN 1#4 2#4 5#4) ∧ decode 0xE1A1#16 = .ok (.sknpVx 1#4) ∧
  decode 0xF30A#16 = .ok (.ldVxK 3#4) ∧ decode 0xF265#16 = .ok (.ldVxMemI 2#4)

/-- Every instruction, with every operand at every value its fields admit, is what its word decodes to. Rests on the
spec's own decisions D10 to D13. -/
def Obligations.DecodeEncodeRoundTrip : Prop := ∀ i : Instr, decode (encode i) = .ok i

/-- A legal word is the word of the instruction it decodes to: the decoder drops no bit. Rests on the spec's own
decisions D10 to D13. -/
def Obligations.EncodeDecodeRoundTrip : Prop := ∀ (w : Word) (i : Instr), decode w = .ok i → encode i = w

/-- Rule R75: a word is a row's instruction iff `w & mask = match`, and no two rows match the same word. Rests on the
spec's own decisions D10 to D13. -/
def Obligations.OpcodeMapSelectsInstruction : Prop :=
  opcodeMap.length = 33 ∧
  (∀ r ∈ opcodeMap, ∀ w : Word, w &&& r.mask = r.pattern ↔ ∃ i, decode w = .ok i ∧ i.mnemonic = r.mnemonic) ∧
  (∀ r ∈ opcodeMap, ∀ r' ∈ opcodeMap, ∀ w : Word,
    w &&& r.mask = r.pattern → w &&& r'.mask = r'.pattern → r = r')

/-- Rule R80: the illegal words are exactly those of the four families with a selector, by their selectors. Rests on
the spec's own decisions D10 to D13. -/
def Obligations.IllegalWordsAreExactly : Prop :=
  ∀ w : Word,
    decode w = .error (.unrecognizedOpcode w) ↔
      (fieldH w = 0x0#4 ∧ fieldN w ≠ 0x0#4 ∧ fieldN w ≠ 0xE#4) ∨
      (fieldH w = 0x8#4 ∧ fieldN w ∈ [0x7#4, 0x8#4, 0x9#4, 0xA#4, 0xB#4, 0xC#4, 0xD#4, 0xF#4]) ∨
      (fieldH w = 0xE#4 ∧ fieldNn w ∉ [0x9E#8, 0xA1#8]) ∨
      (fieldH w = 0xF#4 ∧
        fieldNn w ∉ [0x07#8, 0x0A#8, 0x15#8, 0x18#8, 0x1E#8, 0x29#8, 0x33#8, 0x55#8, 0x65#8])

/-- Rule R79: the well-formed spelling of each instruction with ignored bits is the canonical word. Rests on the
spec's own decisions D11, D12. -/
def Obligations.WellFormedIsCanonical : Prop :=
  (∀ b : Byte, (Instr.cls b).wf = true ↔ encode (.cls b) = 0x00E0#16) ∧
  (∀ b : Byte, (Instr.ret b).wf = true ↔ encode (.ret b) = 0x00EE#16) ∧
  (∀ x y n : Nibble, (Instr.seVxVy x y n).wf = true ↔ encode (.seVxVy x y n) = 0x5#4 ++ x ++ y ++ 0x0#4) ∧
  (∀ x y n : Nibble, (Instr.sneVxVy x y n).wf = true ↔ encode (.sneVxVy x y n) = 0x9#4 ++ x ++ y ++ 0x0#4) ∧
  (∀ x y : Nibble, (Instr.shrVx x y).wf = true ↔ encode (.shrVx x y) = 0x8#4 ++ x ++ 0x0#4 ++ 0x6#4) ∧
  (∀ x y : Nibble, (Instr.shlVx x y).wf = true ↔ encode (.shlVx x y) = 0x8#4 ++ x ++ 0x0#4 ++ 0xE#4)

/-- Rule R81: the bits the decoder ignores have no effect on execution (a fault of RET alone records them, in FOP).
Rests on the spec's own decisions D11, D12. -/
def Obligations.IgnoredBitsHaveNoEffect : Prop :=
  ∀ (s : State) (b b' : Byte) (x y y' n n' : Nibble),
    exec (.cls b) s = exec (.cls b') s ∧
    (s.sp.val ≠ 0 ∨ s.cfg.oobPolicy = .wrap → exec (.ret b) s = exec (.ret b') s) ∧
    exec (.seVxVy x y n) s = exec (.seVxVy x y n') s ∧
    exec (.sneVxVy x y n) s = exec (.sneVxVy x y n') s ∧
    exec (.shrVx x y) s = exec (.shrVx x y') s ∧
    exec (.shlVx x y) s = exec (.shlVx x y') s

/-! ### Memory and fetch (20_memory.md) -/

/-- Rules R52 to R54: a read and a write of one byte, in range, wrapped, and out of range. Rests on the spec's own
decision D4. -/
def Obligations.MemoryAccessesAreBounded : Prop :=
  ∀ (s : State) (a : Nat) (b : Byte), Memory.wf s.cfg s.mem = true →
    (a ≤ 0xFFF → memRead s a = .ok (readByte s a)) ∧
    (0xFFF < a → s.cfg.oobPolicy = .wrap → memRead s a = .ok (readByte s (a % 4096))) ∧
    (0xFFF < a → s.cfg.oobPolicy = .fault →
      memRead s a = .error .addressOutOfRange ∧ memWrite s a b = .error .addressOutOfRange) ∧
    (a ≤ 0xFFF ∨ s.cfg.oobPolicy = .wrap →
      ∃ t, memWrite s a b = .ok t ∧ readByte t (a % 4096) = b ∧
        (∀ a', a' ≠ a % 4096 → readByte t a' = readByte s a') ∧ Frame [.mem] s t)

/-- Rule R55: the fetched word is big-endian, from the memory data accesses read; its first byte out of range raises
AddressOutOfRange, and so does its second. Rests on the spec's own decision D4. -/
def Obligations.FetchIsBigEndian : Prop :=
  ∀ s : State,
    (InRange s.cfg s.pc.toNat 2 →
      ∃ op : Word, fetch s = .ok op ∧
        op.toNat = (readByte s (s.pc.toNat % 4096)).toNat * 256 +
          (readByte s ((s.pc.toNat + 1) % 4096)).toNat) ∧
    (¬ InRange s.cfg s.pc.toNat 2 → fetch s = .error .addressOutOfRange)

/-- Rule R63: what a store writes is what the next fetch of those addresses returns. -/
def Obligations.StoreIsSeenByNextFetch : Prop :=
  ∀ (s t u : State) (hi lo : Byte), Memory.wf s.cfg s.mem = true → s.pc.toNat ≤ 0xFFE →
    memWrite s s.pc.toNat hi = .ok t → memWrite t (s.pc.toNat + 1) lo = .ok u → fetch u = .ok (hi ++ lo)

/-! ### The step (40_cycle.md) and faults (60_exceptions.md) -/

/-- Rule R90: when the word at PC decodes to `i`, the step is `exec i` with PC advanced by 2, TONE and AWAIT cleared
and the loader's window closed before it, and the timer tick after it unless it raised a fault. -/
def Obligations.StepRunsDecodedInstruction : Prop :=
  ∀ (s : State) (op : Word) (i : Instr), s.halt = false → fetch s = .ok op → decode op = .ok i →
    step s = finishStep (exec i
      { s with pc := s.pc + 2#16, tone := false, awaiting := false, loadOpen := false })

/-- Rules R91, R184: a fetch out of range halts the core with AddressOutOfRange and PC in FADDR. Rests on the spec's
own decisions D4, D23. -/
def Obligations.FetchOutOfRangeFaults : Prop :=
  ∀ s : State, s.halt = false → s.cfg.oobPolicy = .fault → 0xFFE < s.pc.toNat →
    ∃ t op, step s = .next t ∧ Faulted .addressOutOfRange s.pc op s t

/-- Rule R94: a word that matches no row of the opcode map halts the core with UnrecognizedOpcode, the fetch address
and the word, under every policy. Rests on the spec's own decision D23. -/
def Obligations.UnrecognizedWordFaults : Prop :=
  ∀ (s : State) (op : Word), s.halt = false → fetch s = .ok op → (∀ r ∈ opcodeMap, op &&& r.mask ≠ r.pattern) →
    ∃ t, step s = .next t ∧ Faulted .unrecognizedOpcode s.pc op s t

/-- Rules R33, R97, R193: with HALT = 1 no step is enabled, and no host move but Reset clears HALT. Rests on the
spec's own decision D23. -/
def Obligations.HaltedCoreStays : Prop :=
  ∀ s : State, s.halt = true →
    step s = .fault .halted ∧
    (∀ m t, m ≠ .reset → hostMove m s = some t → t.halt = true) ∧
    (∃ t, hostMove .reset s = some t ∧ t.halt = false)

/-- Rule R181: a step that ends halted has written the whole fault record, whatever raised it: the fetch address, the
fetched word where there was one, a code of rule R182, no TONE, and nothing the host owns. Rests on the spec's own
decisions D23, D24. -/
def Obligations.FaultRecordIsComplete : Prop :=
  ∀ s t : State, step s = .next t → t.halt = true →
    t.faddr = s.pc ∧ (∀ op, fetch s = .ok op → t.fop = op) ∧ 1 ≤ t.fcause.toNat ∧ t.fcause.toNat ≤ 6 ∧
    (s.cfg.oobPolicy = .wrap → t.fcause = 1#3) ∧ t.tone = false ∧ t.awaiting = false ∧
    t.key = s.key ∧ t.kev = s.kev ∧ t.cfg = s.cfg

/-- Rules R95, R96: every completed step takes 1 off each positive timer, from the value its instruction may just have
set, and asserts TONE exactly when that takes ST from 1 to 0. -/
def Obligations.TimersTickOncePerStep : Prop :=
  ∀ (s t : State) (i : Instr), nextInstr s = some i → step s = .next t → t.halt = false →
    t.dt.toNat = (match i with | .ldDtVx x => (readReg s x).toNat | _ => s.dt.toNat) - 1 ∧
    t.st.toNat = (match i with | .ldStVx x => (readReg s x).toNat | _ => s.st.toNat) - 1 ∧
    (t.tone = true ↔ (match i with | .ldStVx x => (readReg s x).toNat | _ => s.st.toNat) = 1)

/-- Rule R95, closed form: `n` completed steps, none of which executes LD DT,Vx, take `n` off DT, down to 0. -/
def Obligations.DelayTimerCountsSteps : Prop :=
  ∀ (n : Nat) (s t : State), runSteps n s = some t → t.halt = false →
    NoneInRun (fun i => ∃ x, i = .ldDtVx x) n s → t.dt.toNat = s.dt.toNat - n

/-- Rule R96: while no LD ST,Vx is executed, TONE is asserted in exactly one step, the one that counts ST down to 0.
Rests on the spec's own decision D31. -/
def Obligations.ToneFiresExactlyOnce : Prop :=
  ∀ (n : Nat) (s t : State), 0 < n → runSteps n s = some t → t.halt = false →
    NoneInRun (fun i => ∃ x, i = .ldStVx x) n s → (t.tone = true ↔ s.st.toNat = n)

/-! ### Control transfer (41_control_transfer.md) -/

/-- Rules R101, R109: JP nnn and JP V0,nnn set PC, the sum not reduced to 12 bits, and change nothing else. Rests on
the spec's own decisions D10, D22. -/
def Obligations.JumpsSetPc : Prop :=
  ∀ (nnn : Addr12) (s : State),
    decode (0x1#4 ++ nnn) = .ok (.jpNnn nnn) ∧ decode (0xB#4 ++ nnn) = .ok (.jpV0Nnn nnn) ∧
    (∃ t, exec (.jpNnn nnn) s = .next t ∧ t.pc.toNat = nnn.toNat ∧ Frame [.pc] s t) ∧
    (∃ t, exec (.jpV0Nnn nnn) s = .next t ∧ t.pc.toNat = nnn.toNat + (readReg s 0#4).toNat ∧ Frame [.pc] s t)

/-- Rules R103 to R107: each skip adds 2 more to the advanced PC when its condition holds, and changes nothing else.
Rests on the spec's own decisions D10, D12, D22. -/
def Obligations.SkipsCompareRegisters : Prop :=
  ∀ (x y n : Nibble) (nn : Byte) (s : State),
    decode (0x3#4 ++ x ++ nn) = .ok (.seVxNn x nn) ∧ decode (0x4#4 ++ x ++ nn) = .ok (.sneVxNn x nn) ∧
    decode (0x5#4 ++ x ++ y ++ n) = .ok (.seVxVy x y n) ∧ decode (0x9#4 ++ x ++ y ++ n) = .ok (.sneVxVy x y n) ∧
    (∃ t, exec (.seVxNn x nn) s = .next t ∧
      OnlyPc (if readReg s x = nn then s.pc + 2#16 else s.pc) s t) ∧
    (∃ t, exec (.sneVxNn x nn) s = .next t ∧
      OnlyPc (if readReg s x ≠ nn then s.pc + 2#16 else s.pc) s t) ∧
    (∃ t, exec (.seVxVy x y n) s = .next t ∧
      OnlyPc (if readReg s x = readReg s y then s.pc + 2#16 else s.pc) s t) ∧
    (∃ t, exec (.sneVxVy x y n) s = .next t ∧
      OnlyPc (if readReg s x ≠ readReg s y then s.pc + 2#16 else s.pc) s t)

/-- Rule R102: CALL pushes its own address, PC - 2, in slot SP and jumps; the 17th frame overflows or wraps. Rests on
the spec's own decision D5. -/
def Obligations.CallPushesItsAddress : Prop :=
  ∀ (nnn : Addr12) (s : State),
    decode (0x2#4 ++ nnn) = .ok (.callNnn nnn) ∧
    (s.sp.val ≤ 15 ∨ s.cfg.oobPolicy = .wrap →
      ∃ t, exec (.callNnn nnn) s = .next t ∧ t.pc.toNat = nnn.toNat ∧
        (s.cfg.oobPolicy = .fault → t.sp.val = s.sp.val + 1) ∧
        (s.cfg.oobPolicy = .wrap → t.sp.val = (s.sp.val + 1) % 16) ∧
        (∀ k : Fin 16, t.stack.get k = if k.val = s.sp.val % 16 then s.pc - 2#16 else s.stack.get k) ∧
        Frame [.pc, .sp, .stack] s t) ∧
    (s.sp.val = 16 → s.cfg.oobPolicy = .fault →
      ∃ t, exec (.callNnn nnn) s = .next t ∧ Faulted .stackOverflow (s.pc - 2#16) (0x2#4 ++ nnn) s t)

/-- Rule R100: RET takes SP down by 1 modulo 16, resumes 2 past the popped address and clears the slot; with SP = 0 it
underflows or wraps. Rests on the spec's own decisions D5, D11. -/
def Obligations.ReturnPopsAndClears : Prop :=
  ∀ (b : Byte) (s : State),
    decode (0x0#4 ++ b ++ 0xE#4) = .ok (.ret b) ∧
    (s.sp.val ≠ 0 ∨ s.cfg.oobPolicy = .wrap →
      ∃ t, exec (.ret b) s = .next t ∧ t.sp.val = (s.sp.val + 15) % 16 ∧
        (∀ k : Fin 16, k.val = t.sp.val → t.pc = s.stack.get k + 2#16) ∧
        (∀ k : Fin 16, t.stack.get k = if k.val = t.sp.val then 0#16 else s.stack.get k) ∧
        Frame [.pc, .sp, .stack] s t) ∧
    (s.sp.val = 0 → s.cfg.oobPolicy = .fault →
      ∃ t, exec (.ret b) s = .next t ∧ Faulted .stackUnderflow (s.pc - 2#16) (0x0#4 ++ b ++ 0xE#4) s t)

/-- GC8's property of rules R100, R102: a CALL whose target holds a RET comes back to the next instruction, with SP as
it was and the slot cleared. Rests on the spec's own decisions D5, D11. -/
def Obligations.CallThenReturnResumes : Prop :=
  ∀ (s : State) (nnn : Addr12) (b : Byte), s.halt = false → s.sp.val ≤ 15 → nextInstr s = some (.callNnn nnn) →
    nextInstr (setPc s (addrOf nnn)) = some (.ret b) →
    ∃ t u, step s = .next t ∧ step t = .next u ∧ t.pc.toNat = nnn.toNat ∧ u.halt = false ∧ u.pc = s.pc + 2#16 ∧
      u.sp = s.sp ∧ ∀ k : Fin 16, u.stack.get k = if k.val = s.sp.val then 0#16 else s.stack.get k

/-! ### Loads and ALU (42_load_alu.md) -/

/-- Rules R122 to R124: LD Vx,nn, ADD Vx,nn and LD Vx,Vy write Vx and nothing else; no flag. -/
def Obligations.LoadsAndAddImmediateWriteVx : Prop :=
  ∀ (x y : Nibble) (nn : Byte) (s : State),
    decode (0x6#4 ++ x ++ nn) = .ok (.ldVxNn x nn) ∧ decode (0x7#4 ++ x ++ nn) = .ok (.addVxNn x nn) ∧
    decode (0x8#4 ++ x ++ y ++ 0x0#4) = .ok (.ldVxVy x y) ∧
    (∃ t, exec (.ldVxNn x nn) s = .next t ∧ OnlyReg x nn s t) ∧
    (∃ t, exec (.addVxNn x nn) s = .next t ∧
      OnlyReg x (BitVec.ofNat 8 (((readReg s x).toNat + nn.toNat) % 256)) s t) ∧
    (∃ t, exec (.ldVxVy x y) s = .next t ∧ OnlyReg x (readReg s y) s t)

/-- Rules R125 to R127: OR, AND and XOR write Vx, bit by bit, and nothing else; no flag. -/
def Obligations.LogicOpsWriteVx : Prop :=
  ∀ (x y : Nibble) (s : State),
    decode (0x8#4 ++ x ++ y ++ 0x1#4) = .ok (.orVxVy x y) ∧ decode (0x8#4 ++ x ++ y ++ 0x2#4) = .ok (.andVxVy x y) ∧
    decode (0x8#4 ++ x ++ y ++ 0x3#4) = .ok (.xorVxVy x y) ∧
    (∃ t, exec (.orVxVy x y) s = .next t ∧ RegsExcept [x] s t ∧ Frame [.v] s t ∧
      ∀ k, (readReg t x).getLsbD k = ((readReg s x).getLsbD k || (readReg s y).getLsbD k)) ∧
    (∃ t, exec (.andVxVy x y) s = .next t ∧ RegsExcept [x] s t ∧ Frame [.v] s t ∧
      ∀ k, (readReg t x).getLsbD k = ((readReg s x).getLsbD k && (readReg s y).getLsbD k)) ∧
    (∃ t, exec (.xorVxVy x y) s = .next t ∧ RegsExcept [x] s t ∧ Frame [.v] s t ∧
      ∀ k, (readReg t x).getLsbD k = ((readReg s x).getLsbD k ^^ (readReg s y).getLsbD k))

/-- Rules R121, R128: ADD Vx,Vy gives the sum modulo 256 and the carry in VF; for x = 0xF, VF_WRITE_ORDER decides.
Rests on the spec's own decisions D8, D9. -/
def Obligations.AddSetsCarry : Prop :=
  ∀ (x y : Nibble) (s : State),
    decode (0x8#4 ++ x ++ y ++ 0x4#4) = .ok (.addVxVy x y) ∧
    ∃ t, exec (.addVxVy x y) s = .next t ∧
      ResultAndFlag x (BitVec.ofNat 8 (((readReg s x).toNat + (readReg s y).toNat) % 256))
        (if (readReg s x).toNat + (readReg s y).toNat > 255 then 1#8 else 0#8) s t

/-- Rules R121, R129: SUB Vx,Vy gives the difference modulo 256 and VF = 1 exactly on a borrow. Rests on the spec's
own decisions D8, D9. -/
def Obligations.SubSetsBorrow : Prop :=
  ∀ (x y : Nibble) (s : State),
    decode (0x8#4 ++ x ++ y ++ 0x5#4) = .ok (.subVxVy x y) ∧
    ∃ t, exec (.subVxVy x y) s = .next t ∧
      ResultAndFlag x (BitVec.ofNat 8 ((256 + (readReg s x).toNat - (readReg s y).toNat) % 256))
        (if (readReg s x).toNat < (readReg s y).toNat then 1#8 else 0#8) s t

/-- Rules R121, R130, R131: SHR and SHL shift Vx itself by one place, logically, and VF is the bit shifted out. Rests
on the spec's own decisions D8, D9. -/
def Obligations.ShiftsSetBitShiftedOut : Prop :=
  ∀ (x y : Nibble) (s : State),
    decode (0x8#4 ++ x ++ y ++ 0x6#4) = .ok (.shrVx x y) ∧ decode (0x8#4 ++ x ++ y ++ 0xE#4) = .ok (.shlVx x y) ∧
    (∃ t, exec (.shrVx x y) s = .next t ∧
      ResultAndFlag x (BitVec.ofNat 8 ((readReg s x).toNat / 2)) (BitVec.ofNat 8 ((readReg s x).toNat % 2)) s t) ∧
    (∃ t, exec (.shlVx x y) s = .next t ∧
      ResultAndFlag x (BitVec.ofNat 8 ((readReg s x).toNat * 2 % 256)) (BitVec.ofNat 8 ((readReg s x).toNat / 128))
        s t)

/-- For x other than 0xF nothing of the exact result of rules R128 to R131 is lost: it is read back from Vx and VF.
Rests on the spec's own decision D8. -/
def Obligations.FlagAndResultAreExact : Prop :=
  ∀ (x y : Nibble) (s t : State), x ≠ 0xF#4 →
    (exec (.addVxVy x y) s = .next t →
      (readReg t 0xF#4).toNat * 256 + (readReg t x).toNat = (readReg s x).toNat + (readReg s y).toNat) ∧
    (exec (.subVxVy x y) s = .next t →
      (readReg t x).toNat + (readReg s y).toNat = (readReg s x).toNat + (readReg t 0xF#4).toNat * 256) ∧
    (exec (.shrVx x y) s = .next t → (readReg t x).toNat * 2 + (readReg t 0xF#4).toNat = (readReg s x).toNat) ∧
    (exec (.shlVx x y) s = .next t →
      (readReg t 0xF#4).toNat * 256 + (readReg t x).toNat = (readReg s x).toNat * 2)

/-! ### The index register, loads and stores (43_index_memory.md) -/

/-- Rules R140, R142: LD I,nnn and LD F,Vx set I, Vx not masked, and change nothing else. -/
def Obligations.IndexLoadsSetI : Prop :=
  ∀ (nnn : Addr12) (x : Nibble) (s : State),
    decode (0xA#4 ++ nnn) = .ok (.ldINnn nnn) ∧ decode (0xF#4 ++ x ++ 0x29#8) = .ok (.ldFVx x) ∧
    (∃ t, exec (.ldINnn nnn) s = .next t ∧ t.i.toNat = nnn.toNat ∧ Frame [.i] s t) ∧
    (∃ t, exec (.ldFVx x) s = .next t ∧ t.i.toNat = (readReg s x).toNat * 5 ∧ Frame [.i] s t)

/-- Rule R141: ADD I,Vx adds modulo 65536 and sets VF by the unreduced sum, the old VF being the addend when x = 0xF.
Rests on the spec's own decisions D8, D22. -/
def Obligations.AddIndexSetsFlag : Prop :=
  ∀ (x : Nibble) (s : State),
    decode (0xF#4 ++ x ++ 0x1E#8) = .ok (.addIVx x) ∧
    ∃ t, exec (.addIVx x) s = .next t ∧ t.i.toNat = (s.i.toNat + (readReg s x).toNat) % 65536 ∧
      readReg t 0xF#4 = (if s.i.toNat + (readReg s x).toNat > 0xFFF then 1#8 else 0#8) ∧
      RegsExcept [0xF#4] s t ∧ Frame [.i, .v] s t

/-- Rule R143: LD B,Vx stores the hundreds, tens and ones of Vx at I, I + 1, I + 2, each address under the bounds
rule, and changes no other byte and nothing else; out of range it raises AddressOutOfRange. Rests on the spec's own
decision D4. -/
def Obligations.DecimalDigitsAreStored : Prop :=
  ∀ (x : Nibble) (s : State),
    decode (0xF#4 ++ x ++ 0x33#8) = .ok (.ldBVx x) ∧
    (Memory.wf s.cfg s.mem = true → InRange s.cfg s.i.toNat 3 →
      ∃ t, exec (.ldBVx x) s = .next t ∧
        (∀ a, boundAddress s.cfg (indexAddress s 0) = .ok a →
          (readByte t a).toNat = (readReg s x).toNat / 100) ∧
        (∀ a, boundAddress s.cfg (indexAddress s 1) = .ok a →
          (readByte t a).toNat = (readReg s x).toNat / 10 % 10) ∧
        (∀ a, boundAddress s.cfg (indexAddress s 2) = .ok a →
          (readByte t a).toNat = (readReg s x).toNat % 10) ∧
        (∀ a, (∀ k, k < 3 → boundAddress s.cfg (indexAddress s k) ≠ .ok a) → readByte t a = readByte s a) ∧
        Frame [.mem] s t) ∧
    (¬ InRange s.cfg s.i.toNat 3 →
      ∃ t, exec (.ldBVx x) s = .next t ∧
        Faulted .addressOutOfRange (s.pc - 2#16) (0xF#4 ++ x ++ 0x33#8) s t)

/-- Rule R144: LD [I],Vx stores V[0] to V[x], inclusive, at I upward, each address under the bounds rule, and changes
no other byte and nothing else; out of range it raises AddressOutOfRange. Rests on the spec's own decision D4. -/
def Obligations.BulkStoreWritesRegisters : Prop :=
  ∀ (x : Nibble) (s : State),
    decode (0xF#4 ++ x ++ 0x55#8) = .ok (.ldMemIVx x) ∧
    (Memory.wf s.cfg s.mem = true → InRange s.cfg s.i.toNat (x.toNat + 1) →
      ∃ t, exec (.ldMemIVx x) s = .next t ∧
        (∀ r : Nibble, r.toNat ≤ x.toNat →
          ∀ a, boundAddress s.cfg (indexAddress s r.toNat) = .ok a → readByte t a = readReg s r) ∧
        (∀ a, (∀ r : Nibble, r.toNat ≤ x.toNat → boundAddress s.cfg (indexAddress s r.toNat) ≠ .ok a) →
          readByte t a = readByte s a) ∧
        Frame [.mem] s t) ∧
    (¬ InRange s.cfg s.i.toNat (x.toNat + 1) →
      ∃ t, exec (.ldMemIVx x) s = .next t ∧
        Faulted .addressOutOfRange (s.pc - 2#16) (0xF#4 ++ x ++ 0x55#8) s t)

/-- Rule R145: LD Vx,[I] loads V[0] to V[x], inclusive, from I upward; registers above x and everything else keep
their values; out of range it raises AddressOutOfRange. Rests on the spec's own decision D4. -/
def Obligations.BulkLoadReadsRegisters : Prop :=
  ∀ (x : Nibble) (s : State),
    decode (0xF#4 ++ x ++ 0x65#8) = .ok (.ldVxMemI x) ∧
    (InRange s.cfg s.i.toNat (x.toNat + 1) →
      ∃ t, exec (.ldVxMemI x) s = .next t ∧
        (∀ r : Nibble, r.toNat ≤ x.toNat →
          ∀ a, boundAddress s.cfg (indexAddress s r.toNat) = .ok a → readReg t r = readByte s a) ∧
        (∀ r : Nibble, x.toNat < r.toNat → readReg t r = readReg s r) ∧ Frame [.v] s t) ∧
    (¬ InRange s.cfg s.i.toNat (x.toNat + 1) →
      ∃ t, exec (.ldVxMemI x) s = .next t ∧
        Faulted .addressOutOfRange (s.pc - 2#16) (0xF#4 ++ x ++ 0x65#8) s t)

/-- GC8's round trip (rule R145): a bulk store, then a bulk load from the same address, whatever the registers held in
between, gives V[0] to V[x] back. Rests on the spec's own decision D4. -/
def Obligations.BulkStoreLoadRoundTrip : Prop :=
  ∀ (x : Nibble) (s : State) (w : Vector Byte 16), Memory.wf s.cfg s.mem = true →
    InRange s.cfg s.i.toNat (x.toNat + 1) →
    ∃ t u, exec (.ldMemIVx x) s = .next t ∧ exec (.ldVxMemI x) { t with v := w } = .next u ∧ u.i = s.i ∧
      ∀ r : Nibble, readReg u r = if r.toNat ≤ x.toNat then readReg s r else readReg { t with v := w } r

/-! ### Display (44_display.md) -/

/-- Rule R150: CLS turns every cell off and sets DP, and changes nothing else; VF is not touched. That every word 0--0
is CLS rests on the spec's own decisions D10 and D11 (rule R76: "are this spec's"). -/
def Obligations.ClearScreenZeroesCells : Prop :=
  ∀ (b : Byte) (s : State),
    decode (0x0#4 ++ b ++ 0x0#4) = .ok (.cls b) ∧
    ∃ t, exec (.cls b) s = .next t ∧ (∀ k, fbCell t k = false) ∧ t.dp = true ∧ Frame [.fb, .dp] s t

/-- Rules R151 to R153: where every row reached is in range and every set bit on the grid, or under `wrap`, DRW flips
exactly the cells a set sprite bit lands on, VF says whether one of them was on, and DP is set; else the first row
that does not fit raises its fault, the row's byte before its pixels (rule R189). Rests on the spec's own decisions
D4, D6, D8, D14, D25. -/
def Obligations.DrawXorsSpriteAndReportsCollision : Prop :=
  ∀ (x y n : Nibble) (s : State),
    decode (0xD#4 ++ x ++ y ++ n) = .ok (.drwVxVyN x y n) ∧
    (DrawFits s x y n →
      ∃ t, exec (.drwVxVyN x y n) s = .next t ∧
        (∀ k, k < 2048 → Covers s x y n k → fbCell t k = !fbCell s k) ∧
        (∀ k, k < 2048 → ¬ Covers s x y n k → fbCell t k = fbCell s k) ∧
        ((∃ k, Covers s x y n k ∧ fbCell s k = true) → readReg t 0xF#4 = 1#8) ∧
        ((¬ ∃ k, Covers s x y n k ∧ fbCell s k = true) → readReg t 0xF#4 = 0#8) ∧
        t.dp = true ∧ RegsExcept [0xF#4] s t ∧ Frame [.v, .fb, .dp] s t) ∧
    (∀ row, s.cfg.oobPolicy = .fault → row < n.toNat → (∀ r, r < row → RowFits s x y r) → ¬ RowFits s x y row →
      ∃ t, exec (.drwVxVyN x y n) s = .next t ∧
        Faulted (if s.i.toNat + row > 0xFFF then .addressOutOfRange else .drawOutOfBounds) (s.pc - 2#16)
          (0xD#4 ++ x ++ y ++ n) s t)

/-- XOR self-cancellation (rule R151): drawing the same sprite twice at the same place restores the framebuffer, and
the second draw reports VF = 1 iff a cell under a set bit was off before the first (notes/assumptions/17.md). Rests on
the spec's own decisions D4, D6, D8, D14. -/
def Obligations.DrawTwiceRestoresFramebuffer : Prop :=
  ∀ (x y n : Nibble) (s : State), x ≠ 0xF#4 → y ≠ 0xF#4 → DrawFits s x y n →
    ∃ t u, exec (.drwVxVyN x y n) s = .next t ∧ exec (.drwVxVyN x y n) t = .next u ∧
      (∀ k, k < 2048 → fbCell u k = fbCell s k) ∧
      (readReg u 0xF#4 = 1#8 ↔ ∃ k, Covers s x y n k ∧ fbCell s k = false)

/-! ### Random, keypad, timers (45_input_timers_random.md) -/

/-- Rules R160, R167: RND gives one draw of the oracle masked by nn, whatever the draw; no bit outside nn is set; the
draw is consumed; nothing else changes. Rests on the spec's own decision D26. -/
def Obligations.RandomIsOneMaskedDraw : Prop :=
  ∀ (x : Nibble) (nn : Byte) (s : State),
    decode (0xC#4 ++ x ++ nn) = .ok (.rndVxNn x nn) ∧
    ∃ t, exec (.rndVxNn x nn) s = .next t ∧ readReg t x = Config.randByte s.freeIx &&& nn ∧
      readReg t x &&& ~~~nn = 0#8 ∧ t.freeIx = s.freeIx + 1 ∧ RegsExcept [x] s t ∧ Frame [.v, .freeIx] s t

/-- Rules R161, R162, R168: SKP and SKNP skip by the latch cell Vx names, modulo 16 under `wrap`; above 15 under
`fault` they raise KeyIndexOutOfRange. Rests on the spec's own decision D7. -/
def Obligations.KeySkipsTestTheLatch : Prop :=
  ∀ (x : Nibble) (s : State),
    decode (0xE#4 ++ x ++ 0x9E#8) = .ok (.skpVx x) ∧ decode (0xE#4 ++ x ++ 0xA1#8) = .ok (.sknpVx x) ∧
    ((readReg s x).toNat ≤ 15 ∨ s.cfg.oobPolicy = .wrap →
      ∀ k : Fin 16, k.val = (readReg s x).toNat % 16 →
        (∃ t, exec (.skpVx x) s = .next t ∧
          OnlyPc (if s.key.get k = true then s.pc + 2#16 else s.pc) s t) ∧
        (∃ t, exec (.sknpVx x) s = .next t ∧
          OnlyPc (if s.key.get k = false then s.pc + 2#16 else s.pc) s t)) ∧
    (15 < (readReg s x).toNat → s.cfg.oobPolicy = .fault →
      (∃ t, exec (.skpVx x) s = .next t ∧
        Faulted .keyIndexOutOfRange (s.pc - 2#16) (0xE#4 ++ x ++ 0x9E#8) s t) ∧
      (∃ t, exec (.sknpVx x) s = .next t ∧
        Faulted .keyIndexOutOfRange (s.pc - 2#16) (0xE#4 ++ x ++ 0xA1#8) s t))

/-- Rule R164: with no event latched LD Vx,K rewinds PC and asserts AWAIT; with one latched it stores KEV in Vx and
consumes the event. Nothing else changes. Rests on the spec's own decisions D16, D31. -/
def Obligations.WaitForKeyConsumesOneEvent : Prop :=
  ∀ (x : Nibble) (s : State),
    decode (0xF#4 ++ x ++ 0x0A#8) = .ok (.ldVxK x) ∧
    (s.kc = true →
      ∃ t, exec (.ldVxK x) s = .next t ∧ t.pc = s.pc - 2#16 ∧ t.awaiting = true ∧ Frame [.pc, .awaiting] s t) ∧
    (s.kc = false →
      ∃ t, exec (.ldVxK x) s = .next t ∧ (readReg t x).toNat = s.kev.toNat ∧ t.kc = true ∧ RegsExcept [x] s t ∧
        Frame [.v, .kc] s t)

/-- Rules R164, R213 and U14: while the host makes no KeyDown the core spins, PC unmoved, AWAIT asserted and the
timers running down; after KeyDown(k) the next step stores k and moves on. Rests on the spec's own decisions D3, D16,
D31. -/
def Obligations.KeyWaitSpinsUntilKeyDown : Prop :=
  ∀ (x k : Nibble) (s : State) (n : Nat), s.halt = false → s.kc = true → nextInstr s = some (.ldVxK x) →
    ∃ t u w, runSteps n s = some t ∧ t.pc = s.pc ∧ (0 < n → t.awaiting = true) ∧
      t.dt.toNat = s.dt.toNat - n ∧ t.st.toNat = s.st.toNat - n ∧
      Frame [.dt, .st, .tone, .awaiting, .loadOpen] s t ∧
      hostMove (.keyDown k) t = some u ∧ step u = .next w ∧
      (readReg w x).toNat = k.toNat ∧ w.kc = true ∧ w.awaiting = false ∧ w.pc = s.pc + 2#16

/-- Rules R163, R165, R166: LD Vx,DT copies DT, LD DT,Vx and LD ST,Vx copy Vx, and nothing else changes. -/
def Obligations.TimerInstructionsCopy : Prop :=
  ∀ (x : Nibble) (s : State),
    decode (0xF#4 ++ x ++ 0x07#8) = .ok (.ldVxDt x) ∧ decode (0xF#4 ++ x ++ 0x15#8) = .ok (.ldDtVx x) ∧
    decode (0xF#4 ++ x ++ 0x18#8) = .ok (.ldStVx x) ∧
    (∃ t, exec (.ldVxDt x) s = .next t ∧ OnlyReg x s.dt s t) ∧
    (∃ t, exec (.ldDtVx x) s = .next t ∧ t.dt = readReg s x ∧ Frame [.dt] s t) ∧
    (∃ t, exec (.ldStVx x) s = .next t ∧ t.st = readReg s x ∧ Frame [.st] s t)

/-! ### The whole machine -/

/-- Rules R22, R35, R50: whatever instruction completes, only the parts its row of the spec's tables names change, and
of the general registers only its destinations and, for the six of rule R22, VF. -/
def Obligations.InstructionsChangeOnlyTheirParts : Prop :=
  ∀ (i : Instr) (s t : State), s.halt = false → exec i s = .next t → t.halt = false →
    Frame (changedParts i) s t ∧
    RegsExcept (destinations i ++ if setsFlag i then [0xF#4] else []) s t

/-- Rule R22: the six flag instructions write VF to 0 or 1 on every completed execution (x other than 0xF where the
result goes to Vx), and no other instruction writes VF but as a destination it names. -/
def Obligations.OnlySixInstructionsWriteTheFlag : Prop :=
  ∀ (i : Instr) (s t : State), s.halt = false → exec i s = .next t → t.halt = false →
    (setsFlag i = true → 0xF#4 ∉ destinations i → readReg t 0xF#4 = 0#8 ∨ readReg t 0xF#4 = 1#8) ∧
    (setsFlag i = false → 0xF#4 ∉ destinations i → readReg t 0xF#4 = readReg s 0xF#4)

/-- Rule R31: no instruction clears DP; it is set by every completed CLS and DRW and by nothing else. -/
def Obligations.DrawPendingIsSetByDisplayOnly : Prop :=
  ∀ (i : Instr) (s t : State), nextInstr s = some i → step s = .next t → t.halt = false →
    (t.dp = true ↔ s.dp = true ∨ (∃ b, i = .cls b) ∨ ∃ x y n, i = .drwVxVyN x y n)

/-- Rules R36, R40, R41: no step writes KEY, KEV or a parameter, whether it completes or faults. -/
def Obligations.StepLeavesHostStateAlone : Prop :=
  ∀ s t : State, step s = .next t → t.key = s.key ∧ t.kev = s.kev ∧ t.cfg = s.cfg ∧ t.loadOpen = false

/-- The invariant: every step keeps it, from every state that has it. -/
def Obligations.StepKeepsInv : Prop := ∀ s t : State, Invariant s → step s = .next t → Invariant t

/-- The invariant holds after RESET under every setting of the parameters. -/
def Obligations.ResetHasInv : Prop := Invariant State.reset ∧ ∀ cfg : Config, Invariant (State.resetWith cfg)

/-- The invariant: every host move keeps it. -/
def Obligations.HostMovesKeepInv : Prop :=
  ∀ (m : HostMove) (s t : State), Invariant s → hostMove m s = some t → Invariant t

/-- The invariant holds after every run from RESET, steps and host moves in any order, under every setting: what
follows from StepKeepsInv, ResetHasInv and HostMovesKeepInv. -/
def Obligations.EveryRunHasInv : Prop :=
  ∀ (cfg : Config) (es : List Event) (t : State), runEvents es (State.resetWith cfg) = some t → Invariant t

/-- Rule R44: no instruction sees ST, DP, the outputs of the last step, the loader's window or an old fault record: two
states that differ only there take the same step. The model's choice of free values (notes/assumptions/1.md, 2.md:
constants applied to `freeIx` alone, which is equal in both states) is why the two draws of RND agree, and why the parts
rule R191 leaves unspecified agree after a fault: of such a step the spec itself speaks of the fault record only. -/
def Obligations.HiddenStateIsNeverSeen : Prop :=
  ∀ s s' t : State, Frame [.dp, .st, .tone, .awaiting, .loadOpen, .fcause, .faddr, .fop] s s' → step s = .next t →
    ∃ t', step s' = .next t' ∧ Frame [.dp, .st, .tone, .awaiting, .loadOpen, .fcause, .faddr, .fop] t t'

/-- Rules R30, R44: the program sees the framebuffer only through the collision flag of DRW: two states that differ only
in FB take steps that agree but for FB and, where the instruction is DRW, VF. The model's choice of free values
(notes/assumptions/1.md, 2.md, 3.md: constants applied to `freeIx` alone, which is equal in both states) is why the two
draws of RND agree, why the parts rule R191 leaves unspecified agree after a fault, and why FOP agrees after a fault of
the fetch (U17): of a step that faults the spec itself speaks of the fault record only. -/
def Obligations.FramebufferSeenOnlyByCollision : Prop :=
  ∀ s s' t : State, Frame [.fb] s s' → step s = .next t →
    ∃ t', step s' = .next t' ∧ Frame [.v, .fb] t t' ∧ RegsExcept [0xF#4] t t' ∧
      ((∀ x y n, nextInstr s ≠ some (.drwVxVyN x y n)) → Frame [.fb] t t')

/-- Rule R197: once the core is about to fetch a jump to itself, every further step leaves everything but the timers
and the outputs unchanged, and the timers run down. Rests on the spec's own decision D32. -/
def Obligations.FinishedProgramStays : Prop :=
  ∀ (n : Nat) (s : State), HasFinished s →
    ∃ t, runSteps n s = some t ∧ HasFinished t ∧ Frame [.dt, .st, .tone, .awaiting, .loadOpen] s t ∧
      t.dt.toNat = s.dt.toNat - n ∧ t.st.toNat = s.st.toNat - n

/-! ### Reset and the host -/

/-- Rule R42: the state after RESET, for every setting of the parameters, where the rule gives a value. Rests on the
spec's own decisions D17 to D21, D23. -/
def Obligations.ResetValues : Prop :=
  ∀ cfg : Config,
    (∀ x, readReg (State.resetWith cfg) x = 0#8) ∧ (State.resetWith cfg).i = 0#16 ∧
    (State.resetWith cfg).pc = 0x200#16 ∧ (∀ k : Fin 16, (State.resetWith cfg).stack.get k = 0#16) ∧
    (State.resetWith cfg).sp.val = 0 ∧ (State.resetWith cfg).dt = 0#8 ∧ (State.resetWith cfg).st = 0#8 ∧
    (State.resetWith cfg).dp = false ∧ (State.resetWith cfg).kc = true ∧
    (∀ k, fbCell (State.resetWith cfg) k = false) ∧
    (∀ a, (h : a < 80) → readByte (State.resetWith cfg) a = cfg.glyphTable[a]) ∧
    (∀ b a, cfg.memFill = .byte b → 80 ≤ a → readByte (State.resetWith cfg) a = b) ∧
    (State.resetWith cfg).halt = false ∧ (∀ k : Fin 16, (State.resetWith cfg).key.get k = false) ∧
    (State.resetWith cfg).tone = false ∧ (State.resetWith cfg).awaiting = false ∧
    State.reset = State.resetWith defaultConfig

/-- Rules R6, R57: the default parameters, and the default glyphs as memory holds them at reset, digit d at 5 * d.
Rests on the spec's own decisions D4, D9, D15, D20. -/
def Obligations.DefaultParametersAndGlyphs : Prop :=
  State.reset.cfg.oobPolicy = .fault ∧ State.reset.cfg.vfWriteOrder = .flagFirst ∧
  State.reset.cfg.memFill = .byte 0x00#8 ∧
  (List.range 80).map (readByte State.reset) =
    [0xF0, 0x90, 0x90, 0x90, 0xF0] ++ [0x20, 0x60, 0x20, 0x20, 0x70] ++ [0xF0, 0x10, 0xF0, 0x80, 0xF0] ++
    [0xF0, 0x10, 0xF0, 0x10, 0xF0] ++ [0x90, 0x90, 0xF0, 0x10, 0x10] ++ [0xF0, 0x80, 0xF0, 0x10, 0xF0] ++
    [0xF0, 0x80, 0xF0, 0x90, 0xF0] ++ [0xF0, 0x10, 0x20, 0x40, 0x40] ++ [0xF0, 0x90, 0xF0, 0x90, 0xF0] ++
    [0xF0, 0x90, 0xF0, 0x10, 0xF0] ++ [0xF0, 0x90, 0xF0, 0x90, 0x90] ++ [0xE0, 0x90, 0xE0, 0x90, 0xE0] ++
    [0xF0, 0x80, 0x80, 0x80, 0xF0] ++ [0xE0, 0x90, 0x90, 0x90, 0xE0] ++ [0xF0, 0x80, 0xF0, 0x80, 0xF0] ++
    [0xF0, 0x80, 0xF0, 0x80, 0x80]

/-- Rule R206: Load copies a program of at most 3584 bytes to 0x200 upward and changes nothing else, once, before the
first step; a longer one is refused. Rests on the spec's own decision D3. -/
def Obligations.LoadPlacesProgram : Prop :=
  ∀ (s : State) (program : List Byte),
    (Memory.wf s.cfg s.mem = true → s.loadOpen = true → program.length ≤ 3584 →
      ∃ t, hostMove (.load program) s = some t ∧
        (∀ k, (h : k < program.length) → readByte t (0x200 + k) = program[k]) ∧
        (∀ a, a < 0x200 ∨ 0x200 + program.length ≤ a → readByte t a = readByte s a) ∧
        t.loadOpen = false ∧ Frame [.mem, .loadOpen] s t) ∧
    (3584 < program.length → hostMove (.load program) s = none) ∧
    (s.loadOpen = false → hostMove (.load program) s = none)

/-- Rule R195: the other moves of the host, each with its effect and nothing else; what Render and Observe let the host
read; and that nothing follows a Stop. Rests on the spec's own decisions D3, D16. The model's choices in it: Observe
holds the fault record exactly while HALT = 1 (notes/assumptions/19.md), and Reset gives KEV, FCAUSE, FADDR and FOP the
model's reset value (notes/assumptions/4.md) and, under MEM_FILL = unspecified, memory the same bytes again
(notes/assumptions/16.md), where the spec gives none. -/
def Obligations.HostMovesHaveTheirEffects : Prop :=
  ∀ (s : State) (k : Nibble),
    (∃ t, hostMove (.keyDown k) s = some t ∧
      (∀ j : Fin 16, t.key.get j = if j.val = k.toNat then true else s.key.get j) ∧ t.kev = k ∧ t.kc = false ∧
      Frame [.key, .kev, .kc] s t) ∧
    (∃ t, hostMove (.keyUp k) s = some t ∧
      (∀ j : Fin 16, t.key.get j = if j.val = k.toNat then false else s.key.get j) ∧ Frame [.key] s t) ∧
    (s.dp = true → ∃ t, hostMove .render s = some t ∧ t.dp = false ∧ Frame [.dp] s t) ∧
    (s.dp = false → hostMove .render s = none) ∧
    (∀ (x : Fin 64) (y : Fin 32),
      getPixel s x.val y.val = fbCell s (y.val * 64 + x.val) ∧ getPixel s x.val y.val = (s.fb.get y).getLsbD x.val) ∧
    (∀ j, j < 2048 → fbCell s j = getPixel s (j % 64) (j / 64)) ∧
    hostMove .observe s = some s ∧
    (observe s).dp = s.dp ∧ (observe s).tone = s.tone ∧ (observe s).awaiting = s.awaiting ∧
    (observe s).halt = s.halt ∧
    (s.halt = true → (observe s).record = some (s.fcause, s.faddr, s.fop)) ∧
    (s.halt = false → (observe s).record = none) ∧
    hostMove .stop s = some s ∧ (∀ e es, runEvents (.host .stop :: e :: es) s = none) ∧
    (∃ t, hostMove .reset s = some t ∧ Frame [.freeIx] (State.resetWith s.cfg) t)
end

