-- ==== Sys2Proof/Laws/Decode.lean ====
section
/-! SUPPORT. Field arithmetic: what each field and each format is as a number, and the fields of each format
(30_encoding.md rules R71, R72). The round trips and the opcode map are statements of their own and not proved here. -/

namespace Sys2Proof

/-- Concatenation as arithmetic. -/
theorem toNat_append_eq {m n : Nat} (a : BitVec m) (b : BitVec n) : (a ++ b).toNat = a.toNat * 2 ^ n + b.toNat := by
  rw [BitVec.toNat_append, ← Nat.shiftLeft_add_eq_or_of_lt b.isLt, Nat.shiftLeft_eq]

theorem fieldH_toNat (op : Word) : (fieldH op).toNat = op.toNat / 4096 := by
  have := op.isLt
  simp only [fieldH, BitVec.extractLsb'_toNat, Nat.shiftRight_eq_div_pow]
  omega

theorem fieldX_toNat (op : Word) : (fieldX op).toNat = op.toNat / 256 % 16 := by
  simp [fieldX, BitVec.extractLsb'_toNat, Nat.shiftRight_eq_div_pow]

theorem fieldY_toNat (op : Word) : (fieldY op).toNat = op.toNat / 16 % 16 := by
  simp [fieldY, BitVec.extractLsb'_toNat, Nat.shiftRight_eq_div_pow]

theorem fieldN_toNat (op : Word) : (fieldN op).toNat = op.toNat % 16 := by
  simp [fieldN, BitVec.extractLsb'_toNat]

theorem fieldNn_toNat (op : Word) : (fieldNn op).toNat = op.toNat % 256 := by
  simp [fieldNn, BitVec.extractLsb'_toNat]

theorem fieldNnn_toNat (op : Word) : (fieldNnn op).toNat = op.toNat % 4096 := by
  simp [fieldNnn, BitVec.extractLsb'_toNat]

theorem fieldMid_toNat (op : Word) : (fieldMid op).toNat = op.toNat / 16 % 256 := by
  simp [fieldMid, BitVec.extractLsb'_toNat, Nat.shiftRight_eq_div_pow]

theorem wordNNN_toNat (h : Nibble) (nnn : Addr12) : (wordNNN h nnn).toNat = h.toNat * 4096 + nnn.toNat :=
  toNat_append_eq h nnn

theorem wordXNN_toNat (h x : Nibble) (nn : Byte) :
    (wordXNN h x nn).toNat = h.toNat * 4096 + x.toNat * 256 + nn.toNat := by
  have e : (wordXNN h x nn).toNat = (h ++ x).toNat * 2 ^ 8 + nn.toNat := toNat_append_eq (h ++ x) nn
  rw [e, toNat_append_eq]
  omega

theorem wordXYN_toNat (h x y n : Nibble) :
    (wordXYN h x y n).toNat = h.toNat * 4096 + x.toNat * 256 + y.toNat * 16 + n.toNat := by
  have e : (wordXYN h x y n).toNat = (h ++ x ++ y).toNat * 2 ^ 4 + n.toNat := toNat_append_eq (h ++ x ++ y) n
  rw [e, toNat_append_eq, toNat_append_eq]
  omega

theorem wordZ_toNat (mid : Byte) (n : Nibble) : (wordZ mid n).toNat = mid.toNat * 16 + n.toNat := by
  have e : (wordZ mid n).toNat = (0x0#4 ++ mid).toNat * 2 ^ 4 + n.toNat := toNat_append_eq (0x0#4 ++ mid) n
  rw [e, toNat_append_eq]
  simp

section

variable (h x y n : Nibble) (nn : Byte) (nnn : Addr12)

@[simp] theorem fieldH_wordNNN : fieldH (wordNNN h nnn) = h :=
  BitVec.eq_of_toNat_eq (by have := nnn.isLt; rw [fieldH_toNat, wordNNN_toNat]; omega)

@[simp] theorem fieldNnn_wordNNN : fieldNnn (wordNNN h nnn) = nnn :=
  BitVec.eq_of_toNat_eq (by have := nnn.isLt; rw [fieldNnn_toNat, wordNNN_toNat]; omega)

@[simp] theorem fieldH_wordXNN : fieldH (wordXNN h x nn) = h :=
  BitVec.eq_of_toNat_eq (by have := nn.isLt; have := x.isLt; rw [fieldH_toNat, wordXNN_toNat]; omega)

@[simp] theorem fieldX_wordXNN : fieldX (wordXNN h x nn) = x :=
  BitVec.eq_of_toNat_eq (by have := nn.isLt; have := x.isLt; rw [fieldX_toNat, wordXNN_toNat]; omega)

@[simp] theorem fieldNn_wordXNN : fieldNn (wordXNN h x nn) = nn :=
  BitVec.eq_of_toNat_eq (by have := nn.isLt; have := x.isLt; rw [fieldNn_toNat, wordXNN_toNat]; omega)

@[simp] theorem fieldH_wordXYN : fieldH (wordXYN h x y n) = h :=
  BitVec.eq_of_toNat_eq (by
    have := n.isLt; have := y.isLt; have := x.isLt; rw [fieldH_toNat, wordXYN_toNat]; omega)

@[simp] theorem fieldX_wordXYN : fieldX (wordXYN h x y n) = x :=
  BitVec.eq_of_toNat_eq (by
    have := n.isLt; have := y.isLt; have := x.isLt; rw [fieldX_toNat, wordXYN_toNat]; omega)

@[simp] theorem fieldY_wordXYN : fieldY (wordXYN h x y n) = y :=
  BitVec.eq_of_toNat_eq (by
    have := n.isLt; have := y.isLt; have := x.isLt; rw [fieldY_toNat, wordXYN_toNat]; omega)

@[simp] theorem fieldN_wordXYN : fieldN (wordXYN h x y n) = n :=
  BitVec.eq_of_toNat_eq (by
    have := n.isLt; have := y.isLt; have := x.isLt; rw [fieldN_toNat, wordXYN_toNat]; omega)

@[simp] theorem fieldH_wordZ : fieldH (wordZ nn n) = 0x0#4 :=
  BitVec.eq_of_toNat_eq (by
    have := n.isLt; have := nn.isLt; rw [fieldH_toNat, wordZ_toNat]; simp only [BitVec.toNat_ofNat]; omega)

@[simp] theorem fieldMid_wordZ : fieldMid (wordZ nn n) = nn :=
  BitVec.eq_of_toNat_eq (by have := n.isLt; have := nn.isLt; rw [fieldMid_toNat, wordZ_toNat]; omega)

@[simp] theorem fieldN_wordZ : fieldN (wordZ nn n) = n :=
  BitVec.eq_of_toNat_eq (by have := n.isLt; have := nn.isLt; rw [fieldN_toNat, wordZ_toNat]; omega)

end

/-! ### A word is its fields -/

theorem wordNNN_fields (op : Word) : wordNNN (fieldH op) (fieldNnn op) = op :=
  BitVec.eq_of_toNat_eq (by rw [wordNNN_toNat, fieldH_toNat, fieldNnn_toNat]; omega)

theorem wordXNN_fields (op : Word) : wordXNN (fieldH op) (fieldX op) (fieldNn op) = op :=
  BitVec.eq_of_toNat_eq (by rw [wordXNN_toNat, fieldH_toNat, fieldX_toNat, fieldNn_toNat]; omega)

theorem wordXYN_fields (op : Word) : wordXYN (fieldH op) (fieldX op) (fieldY op) (fieldN op) = op :=
  BitVec.eq_of_toNat_eq (by rw [wordXYN_toNat, fieldH_toNat, fieldX_toNat, fieldY_toNat, fieldN_toNat]; omega)

/-- A word of family 0 is its middle byte and its low nibble. -/
theorem wordZ_fields (op : Word) (h : fieldH op = 0x0#4) : wordZ (fieldMid op) (fieldN op) = op :=
  BitVec.eq_of_toNat_eq (by
    have e := congrArg BitVec.toNat h
    rw [fieldH_toNat] at e
    simp only [BitVec.toNat_ofNat] at e
    rw [wordZ_toNat, fieldMid_toNat, fieldN_toNat]
    omega)

/-! ### The three masks of the opcode map (rule R75), on fields -/

/-- A mask that keeps or drops whole nibbles, on a word in its four nibbles. -/
theorem wordXYN_and (h x y n h' x' y' n' : Nibble) :
    wordXYN h x y n &&& wordXYN h' x' y' n' = wordXYN (h &&& h') (x &&& x') (y &&& y') (n &&& n') := by
  unfold wordXYN
  exact (BitVec.and_append).trans (by rw [BitVec.and_append, BitVec.and_append])

theorem nibble_and_F (a : Nibble) : a &&& 0xF#4 = a := by revert a; decide

theorem nibble_and_0 (a : Nibble) : a &&& 0x0#4 = 0x0#4 := by revert a; decide

theorem and_F000 (w : Word) : w &&& 0xF000#16 = wordXYN (fieldH w) 0x0#4 0x0#4 0x0#4 := by
  rw [show (0xF000#16 : Word) = wordXYN 0xF#4 0x0#4 0x0#4 0x0#4 by decide]
  conv_lhs => rw [← wordXYN_fields w]
  simp only [wordXYN_and, nibble_and_F, nibble_and_0]

theorem and_F00F (w : Word) : w &&& 0xF00F#16 = wordXYN (fieldH w) 0x0#4 0x0#4 (fieldN w) := by
  rw [show (0xF00F#16 : Word) = wordXYN 0xF#4 0x0#4 0x0#4 0xF#4 by decide]
  conv_lhs => rw [← wordXYN_fields w]
  simp only [wordXYN_and, nibble_and_F, nibble_and_0]

theorem and_F0FF (w : Word) : w &&& 0xF0FF#16 = wordXNN (fieldH w) 0x0#4 (fieldNn w) := by
  have e : wordXYN (fieldH w) 0x0#4 (fieldY w) (fieldN w) = wordXNN (fieldH w) 0x0#4 (fieldNn w) :=
    BitVec.eq_of_toNat_eq (by
      rw [wordXYN_toNat, wordXNN_toNat, fieldH_toNat, fieldY_toNat, fieldN_toNat, fieldNn_toNat]
      simp only [BitVec.toNat_ofNat]
      omega)
  rw [show (0xF0FF#16 : Word) = wordXYN 0xF#4 0x0#4 0xF#4 0xF#4 by decide, ← e]
  conv_lhs => rw [← wordXYN_fields w]
  simp only [wordXYN_and, nibble_and_F, nibble_and_0]

/-- `decode` succeeds exactly where `decodeWord?` finds an instruction. -/
theorem decode_eq_ok {op : Word} {i : Instr} : decode op = .ok i ↔ decodeWord? op = some i := by
  unfold decode
  cases decodeWord? op <;> simp

/-- `decode` rejects a word by its own name, where `decodeWord?` finds no instruction. -/
theorem decode_eq_error {op : Word} {e : DecodeError} :
    decode op = .error e ↔ decodeWord? op = none ∧ e = .unrecognizedOpcode op := by
  unfold decode
  cases decodeWord? op <;> simp [eq_comm]

end Sys2Proof
end

