-- ==== Sys2Proof/Laws/State.lean ====
section
/-! SUPPORT. What each named update does to each field of State, once and for all: one lemma per update and field, true
by computation, so that no later proof unfolds an update. -/

namespace Sys2Proof.Machine

/-! ### writeReg -/

section

variable (s : State) (x : Nibble) (b : Byte)

@[simp] theorem writeReg_i : (writeReg s x b).i = s.i := rfl
@[simp] theorem writeReg_pc : (writeReg s x b).pc = s.pc := rfl
@[simp] theorem writeReg_stack : (writeReg s x b).stack = s.stack := rfl
@[simp] theorem writeReg_sp : (writeReg s x b).sp = s.sp := rfl
@[simp] theorem writeReg_dt : (writeReg s x b).dt = s.dt := rfl
@[simp] theorem writeReg_st : (writeReg s x b).st = s.st := rfl
@[simp] theorem writeReg_fb : (writeReg s x b).fb = s.fb := rfl
@[simp] theorem writeReg_dp : (writeReg s x b).dp = s.dp := rfl
@[simp] theorem writeReg_kc : (writeReg s x b).kc = s.kc := rfl
@[simp] theorem writeReg_halt : (writeReg s x b).halt = s.halt := rfl
@[simp] theorem writeReg_fcause : (writeReg s x b).fcause = s.fcause := rfl
@[simp] theorem writeReg_faddr : (writeReg s x b).faddr = s.faddr := rfl
@[simp] theorem writeReg_fop : (writeReg s x b).fop = s.fop := rfl
@[simp] theorem writeReg_mem : (writeReg s x b).mem = s.mem := rfl
@[simp] theorem writeReg_key : (writeReg s x b).key = s.key := rfl
@[simp] theorem writeReg_kev : (writeReg s x b).kev = s.kev := rfl
@[simp] theorem writeReg_tone : (writeReg s x b).tone = s.tone := rfl
@[simp] theorem writeReg_awaiting : (writeReg s x b).awaiting = s.awaiting := rfl
@[simp] theorem writeReg_cfg : (writeReg s x b).cfg = s.cfg := rfl
@[simp] theorem writeReg_loadOpen : (writeReg s x b).loadOpen = s.loadOpen := rfl
@[simp] theorem writeReg_freeIx : (writeReg s x b).freeIx = s.freeIx := rfl

end

/-! ### setPc -/

section

variable (s : State) (w : Word)

@[simp] theorem setPc_v : (setPc s w).v = s.v := rfl
@[simp] theorem setPc_i : (setPc s w).i = s.i := rfl
@[simp] theorem setPc_pc : (setPc s w).pc = w := rfl
@[simp] theorem setPc_stack : (setPc s w).stack = s.stack := rfl
@[simp] theorem setPc_sp : (setPc s w).sp = s.sp := rfl
@[simp] theorem setPc_dt : (setPc s w).dt = s.dt := rfl
@[simp] theorem setPc_st : (setPc s w).st = s.st := rfl
@[simp] theorem setPc_fb : (setPc s w).fb = s.fb := rfl
@[simp] theorem setPc_dp : (setPc s w).dp = s.dp := rfl
@[simp] theorem setPc_kc : (setPc s w).kc = s.kc := rfl
@[simp] theorem setPc_halt : (setPc s w).halt = s.halt := rfl
@[simp] theorem setPc_fcause : (setPc s w).fcause = s.fcause := rfl
@[simp] theorem setPc_faddr : (setPc s w).faddr = s.faddr := rfl
@[simp] theorem setPc_fop : (setPc s w).fop = s.fop := rfl
@[simp] theorem setPc_mem : (setPc s w).mem = s.mem := rfl
@[simp] theorem setPc_key : (setPc s w).key = s.key := rfl
@[simp] theorem setPc_kev : (setPc s w).kev = s.kev := rfl
@[simp] theorem setPc_tone : (setPc s w).tone = s.tone := rfl
@[simp] theorem setPc_awaiting : (setPc s w).awaiting = s.awaiting := rfl
@[simp] theorem setPc_cfg : (setPc s w).cfg = s.cfg := rfl
@[simp] theorem setPc_loadOpen : (setPc s w).loadOpen = s.loadOpen := rfl
@[simp] theorem setPc_freeIx : (setPc s w).freeIx = s.freeIx := rfl

end

/-! ### setI -/

section

variable (s : State) (w : Word)

@[simp] theorem setI_v : (setI s w).v = s.v := rfl
@[simp] theorem setI_i : (setI s w).i = w := rfl
@[simp] theorem setI_pc : (setI s w).pc = s.pc := rfl
@[simp] theorem setI_stack : (setI s w).stack = s.stack := rfl
@[simp] theorem setI_sp : (setI s w).sp = s.sp := rfl
@[simp] theorem setI_dt : (setI s w).dt = s.dt := rfl
@[simp] theorem setI_st : (setI s w).st = s.st := rfl
@[simp] theorem setI_fb : (setI s w).fb = s.fb := rfl
@[simp] theorem setI_dp : (setI s w).dp = s.dp := rfl
@[simp] theorem setI_kc : (setI s w).kc = s.kc := rfl
@[simp] theorem setI_halt : (setI s w).halt = s.halt := rfl
@[simp] theorem setI_fcause : (setI s w).fcause = s.fcause := rfl
@[simp] theorem setI_faddr : (setI s w).faddr = s.faddr := rfl
@[simp] theorem setI_fop : (setI s w).fop = s.fop := rfl
@[simp] theorem setI_mem : (setI s w).mem = s.mem := rfl
@[simp] theorem setI_key : (setI s w).key = s.key := rfl
@[simp] theorem setI_kev : (setI s w).kev = s.kev := rfl
@[simp] theorem setI_tone : (setI s w).tone = s.tone := rfl
@[simp] theorem setI_awaiting : (setI s w).awaiting = s.awaiting := rfl
@[simp] theorem setI_cfg : (setI s w).cfg = s.cfg := rfl
@[simp] theorem setI_loadOpen : (setI s w).loadOpen = s.loadOpen := rfl
@[simp] theorem setI_freeIx : (setI s w).freeIx = s.freeIx := rfl

end

/-! ### setDp -/

section

variable (s : State)

@[simp] theorem setDp_v : (setDp s).v = s.v := rfl
@[simp] theorem setDp_i : (setDp s).i = s.i := rfl
@[simp] theorem setDp_pc : (setDp s).pc = s.pc := rfl
@[simp] theorem setDp_stack : (setDp s).stack = s.stack := rfl
@[simp] theorem setDp_sp : (setDp s).sp = s.sp := rfl
@[simp] theorem setDp_dt : (setDp s).dt = s.dt := rfl
@[simp] theorem setDp_st : (setDp s).st = s.st := rfl
@[simp] theorem setDp_fb : (setDp s).fb = s.fb := rfl
@[simp] theorem setDp_dp : (setDp s).dp = true := rfl
@[simp] theorem setDp_kc : (setDp s).kc = s.kc := rfl
@[simp] theorem setDp_halt : (setDp s).halt = s.halt := rfl
@[simp] theorem setDp_fcause : (setDp s).fcause = s.fcause := rfl
@[simp] theorem setDp_faddr : (setDp s).faddr = s.faddr := rfl
@[simp] theorem setDp_fop : (setDp s).fop = s.fop := rfl
@[simp] theorem setDp_mem : (setDp s).mem = s.mem := rfl
@[simp] theorem setDp_key : (setDp s).key = s.key := rfl
@[simp] theorem setDp_kev : (setDp s).kev = s.kev := rfl
@[simp] theorem setDp_tone : (setDp s).tone = s.tone := rfl
@[simp] theorem setDp_awaiting : (setDp s).awaiting = s.awaiting := rfl
@[simp] theorem setDp_cfg : (setDp s).cfg = s.cfg := rfl
@[simp] theorem setDp_loadOpen : (setDp s).loadOpen = s.loadOpen := rfl
@[simp] theorem setDp_freeIx : (setDp s).freeIx = s.freeIx := rfl

end

/-! ### flipCell -/

section

variable (s : State) (k : Nat)

@[simp] theorem flipCell_v : (flipCell s k).v = s.v := rfl
@[simp] theorem flipCell_i : (flipCell s k).i = s.i := rfl
@[simp] theorem flipCell_pc : (flipCell s k).pc = s.pc := rfl
@[simp] theorem flipCell_stack : (flipCell s k).stack = s.stack := rfl
@[simp] theorem flipCell_sp : (flipCell s k).sp = s.sp := rfl
@[simp] theorem flipCell_dt : (flipCell s k).dt = s.dt := rfl
@[simp] theorem flipCell_st : (flipCell s k).st = s.st := rfl
@[simp] theorem flipCell_fb : (flipCell s k).fb = flipBit s.fb k := rfl
@[simp] theorem flipCell_dp : (flipCell s k).dp = s.dp := rfl
@[simp] theorem flipCell_kc : (flipCell s k).kc = s.kc := rfl
@[simp] theorem flipCell_halt : (flipCell s k).halt = s.halt := rfl
@[simp] theorem flipCell_fcause : (flipCell s k).fcause = s.fcause := rfl
@[simp] theorem flipCell_faddr : (flipCell s k).faddr = s.faddr := rfl
@[simp] theorem flipCell_fop : (flipCell s k).fop = s.fop := rfl
@[simp] theorem flipCell_mem : (flipCell s k).mem = s.mem := rfl
@[simp] theorem flipCell_key : (flipCell s k).key = s.key := rfl
@[simp] theorem flipCell_kev : (flipCell s k).kev = s.kev := rfl
@[simp] theorem flipCell_tone : (flipCell s k).tone = s.tone := rfl
@[simp] theorem flipCell_awaiting : (flipCell s k).awaiting = s.awaiting := rfl
@[simp] theorem flipCell_cfg : (flipCell s k).cfg = s.cfg := rfl
@[simp] theorem flipCell_loadOpen : (flipCell s k).loadOpen = s.loadOpen := rfl
@[simp] theorem flipCell_freeIx : (flipCell s k).freeIx = s.freeIx := rfl

end

/-! ### push -/

section

variable (s : State) (w : Word)

@[simp] theorem push_v : (push s w).v = s.v := rfl
@[simp] theorem push_i : (push s w).i = s.i := rfl
@[simp] theorem push_pc : (push s w).pc = s.pc := rfl
@[simp] theorem push_stack : (push s w).stack = s.stack.set (s.sp.val % 16) w (by omega) := rfl
@[simp] theorem push_sp : (push s w).sp = spAfterPush s.cfg.oobPolicy s.sp := rfl
@[simp] theorem push_dt : (push s w).dt = s.dt := rfl
@[simp] theorem push_st : (push s w).st = s.st := rfl
@[simp] theorem push_fb : (push s w).fb = s.fb := rfl
@[simp] theorem push_dp : (push s w).dp = s.dp := rfl
@[simp] theorem push_kc : (push s w).kc = s.kc := rfl
@[simp] theorem push_halt : (push s w).halt = s.halt := rfl
@[simp] theorem push_fcause : (push s w).fcause = s.fcause := rfl
@[simp] theorem push_faddr : (push s w).faddr = s.faddr := rfl
@[simp] theorem push_fop : (push s w).fop = s.fop := rfl
@[simp] theorem push_mem : (push s w).mem = s.mem := rfl
@[simp] theorem push_key : (push s w).key = s.key := rfl
@[simp] theorem push_kev : (push s w).kev = s.kev := rfl
@[simp] theorem push_tone : (push s w).tone = s.tone := rfl
@[simp] theorem push_awaiting : (push s w).awaiting = s.awaiting := rfl
@[simp] theorem push_cfg : (push s w).cfg = s.cfg := rfl
@[simp] theorem push_loadOpen : (push s w).loadOpen = s.loadOpen := rfl
@[simp] theorem push_freeIx : (push s w).freeIx = s.freeIx := rfl

end

/-! ### pop -/

section

variable (s : State)

@[simp] theorem pop_v : ((pop s).2).v = s.v := rfl
@[simp] theorem pop_i : ((pop s).2).i = s.i := rfl
@[simp] theorem pop_pc : ((pop s).2).pc = s.pc := rfl
@[simp] theorem pop_dt : ((pop s).2).dt = s.dt := rfl
@[simp] theorem pop_st : ((pop s).2).st = s.st := rfl
@[simp] theorem pop_fb : ((pop s).2).fb = s.fb := rfl
@[simp] theorem pop_dp : ((pop s).2).dp = s.dp := rfl
@[simp] theorem pop_kc : ((pop s).2).kc = s.kc := rfl
@[simp] theorem pop_halt : ((pop s).2).halt = s.halt := rfl
@[simp] theorem pop_fcause : ((pop s).2).fcause = s.fcause := rfl
@[simp] theorem pop_faddr : ((pop s).2).faddr = s.faddr := rfl
@[simp] theorem pop_fop : ((pop s).2).fop = s.fop := rfl
@[simp] theorem pop_mem : ((pop s).2).mem = s.mem := rfl
@[simp] theorem pop_key : ((pop s).2).key = s.key := rfl
@[simp] theorem pop_kev : ((pop s).2).kev = s.kev := rfl
@[simp] theorem pop_tone : ((pop s).2).tone = s.tone := rfl
@[simp] theorem pop_awaiting : ((pop s).2).awaiting = s.awaiting := rfl
@[simp] theorem pop_cfg : ((pop s).2).cfg = s.cfg := rfl
@[simp] theorem pop_loadOpen : ((pop s).2).loadOpen = s.loadOpen := rfl
@[simp] theorem pop_freeIx : ((pop s).2).freeIx = s.freeIx := rfl

end

/-! ### drawRandom -/

section

variable (s : State)

@[simp] theorem drawRandom_v : ((drawRandom s).2).v = s.v := rfl
@[simp] theorem drawRandom_i : ((drawRandom s).2).i = s.i := rfl
@[simp] theorem drawRandom_pc : ((drawRandom s).2).pc = s.pc := rfl
@[simp] theorem drawRandom_stack : ((drawRandom s).2).stack = s.stack := rfl
@[simp] theorem drawRandom_sp : ((drawRandom s).2).sp = s.sp := rfl
@[simp] theorem drawRandom_dt : ((drawRandom s).2).dt = s.dt := rfl
@[simp] theorem drawRandom_st : ((drawRandom s).2).st = s.st := rfl
@[simp] theorem drawRandom_fb : ((drawRandom s).2).fb = s.fb := rfl
@[simp] theorem drawRandom_dp : ((drawRandom s).2).dp = s.dp := rfl
@[simp] theorem drawRandom_kc : ((drawRandom s).2).kc = s.kc := rfl
@[simp] theorem drawRandom_halt : ((drawRandom s).2).halt = s.halt := rfl
@[simp] theorem drawRandom_fcause : ((drawRandom s).2).fcause = s.fcause := rfl
@[simp] theorem drawRandom_faddr : ((drawRandom s).2).faddr = s.faddr := rfl
@[simp] theorem drawRandom_fop : ((drawRandom s).2).fop = s.fop := rfl
@[simp] theorem drawRandom_mem : ((drawRandom s).2).mem = s.mem := rfl
@[simp] theorem drawRandom_key : ((drawRandom s).2).key = s.key := rfl
@[simp] theorem drawRandom_kev : ((drawRandom s).2).kev = s.kev := rfl
@[simp] theorem drawRandom_tone : ((drawRandom s).2).tone = s.tone := rfl
@[simp] theorem drawRandom_awaiting : ((drawRandom s).2).awaiting = s.awaiting := rfl
@[simp] theorem drawRandom_cfg : ((drawRandom s).2).cfg = s.cfg := rfl
@[simp] theorem drawRandom_loadOpen : ((drawRandom s).2).loadOpen = s.loadOpen := rfl
@[simp] theorem drawRandom_freeIx : ((drawRandom s).2).freeIx = s.freeIx + 1 := rfl

end

/-! ### beginStep -/

section

variable (s : State)

@[simp] theorem beginStep_v : (beginStep s).v = s.v := rfl
@[simp] theorem beginStep_i : (beginStep s).i = s.i := rfl
@[simp] theorem beginStep_pc : (beginStep s).pc = s.pc := rfl
@[simp] theorem beginStep_stack : (beginStep s).stack = s.stack := rfl
@[simp] theorem beginStep_sp : (beginStep s).sp = s.sp := rfl
@[simp] theorem beginStep_dt : (beginStep s).dt = s.dt := rfl
@[simp] theorem beginStep_st : (beginStep s).st = s.st := rfl
@[simp] theorem beginStep_fb : (beginStep s).fb = s.fb := rfl
@[simp] theorem beginStep_dp : (beginStep s).dp = s.dp := rfl
@[simp] theorem beginStep_kc : (beginStep s).kc = s.kc := rfl
@[simp] theorem beginStep_halt : (beginStep s).halt = s.halt := rfl
@[simp] theorem beginStep_fcause : (beginStep s).fcause = s.fcause := rfl
@[simp] theorem beginStep_faddr : (beginStep s).faddr = s.faddr := rfl
@[simp] theorem beginStep_fop : (beginStep s).fop = s.fop := rfl
@[simp] theorem beginStep_mem : (beginStep s).mem = s.mem := rfl
@[simp] theorem beginStep_key : (beginStep s).key = s.key := rfl
@[simp] theorem beginStep_kev : (beginStep s).kev = s.kev := rfl
@[simp] theorem beginStep_tone : (beginStep s).tone = false := rfl
@[simp] theorem beginStep_awaiting : (beginStep s).awaiting = false := rfl
@[simp] theorem beginStep_cfg : (beginStep s).cfg = s.cfg := rfl
@[simp] theorem beginStep_loadOpen : (beginStep s).loadOpen = false := rfl
@[simp] theorem beginStep_freeIx : (beginStep s).freeIx = s.freeIx := rfl

end

/-! ### timerTick -/

section

variable (s : State)

@[simp] theorem timerTick_v : (timerTick s).v = s.v := rfl
@[simp] theorem timerTick_i : (timerTick s).i = s.i := rfl
@[simp] theorem timerTick_pc : (timerTick s).pc = s.pc := rfl
@[simp] theorem timerTick_stack : (timerTick s).stack = s.stack := rfl
@[simp] theorem timerTick_sp : (timerTick s).sp = s.sp := rfl
@[simp] theorem timerTick_dt : (timerTick s).dt = countDown s.dt := rfl
@[simp] theorem timerTick_st : (timerTick s).st = countDown s.st := rfl
@[simp] theorem timerTick_fb : (timerTick s).fb = s.fb := rfl
@[simp] theorem timerTick_dp : (timerTick s).dp = s.dp := rfl
@[simp] theorem timerTick_kc : (timerTick s).kc = s.kc := rfl
@[simp] theorem timerTick_halt : (timerTick s).halt = s.halt := rfl
@[simp] theorem timerTick_fcause : (timerTick s).fcause = s.fcause := rfl
@[simp] theorem timerTick_faddr : (timerTick s).faddr = s.faddr := rfl
@[simp] theorem timerTick_fop : (timerTick s).fop = s.fop := rfl
@[simp] theorem timerTick_mem : (timerTick s).mem = s.mem := rfl
@[simp] theorem timerTick_key : (timerTick s).key = s.key := rfl
@[simp] theorem timerTick_kev : (timerTick s).kev = s.kev := rfl
@[simp] theorem timerTick_tone : (timerTick s).tone = (s.st == 1#8) := rfl
@[simp] theorem timerTick_awaiting : (timerTick s).awaiting = s.awaiting := rfl
@[simp] theorem timerTick_cfg : (timerTick s).cfg = s.cfg := rfl
@[simp] theorem timerTick_loadOpen : (timerTick s).loadOpen = s.loadOpen := rfl
@[simp] theorem timerTick_freeIx : (timerTick s).freeIx = s.freeIx := rfl

end

/-! ### enterFault -/

section

variable (s : State) (c : Cause) (a op : Word)

@[simp] theorem enterFault_halt : (enterFault c a op s).halt = true := rfl
@[simp] theorem enterFault_fcause : (enterFault c a op s).fcause = c.code := rfl
@[simp] theorem enterFault_faddr : (enterFault c a op s).faddr = a := rfl
@[simp] theorem enterFault_fop : (enterFault c a op s).fop = op := rfl
@[simp] theorem enterFault_mem : (enterFault c a op s).mem = faultedMemory s := rfl
@[simp] theorem enterFault_key : (enterFault c a op s).key = s.key := rfl
@[simp] theorem enterFault_kev : (enterFault c a op s).kev = s.kev := rfl
@[simp] theorem enterFault_tone : (enterFault c a op s).tone = false := rfl
@[simp] theorem enterFault_awaiting : (enterFault c a op s).awaiting = false := rfl
@[simp] theorem enterFault_cfg : (enterFault c a op s).cfg = s.cfg := rfl
@[simp] theorem enterFault_loadOpen : (enterFault c a op s).loadOpen = s.loadOpen := rfl
@[simp] theorem enterFault_freeIx : (enterFault c a op s).freeIx = s.freeIx + 1 := rfl

end

/-! ### Derived updates, by the update they are -/

@[simp] theorem writeVf_eq (s : State) (b : Byte) : writeVf s b = writeReg s 0xF#4 b := rfl

@[simp] theorem advancePc_eq (s : State) : advancePc s = setPc s (s.pc + 2#16) := rfl

@[simp] theorem skipIf_true (s : State) : skipIf s true = advancePc s := rfl

@[simp] theorem skipIf_false (s : State) : skipIf s false = s := rfl

@[simp] theorem drawRandom_fst (s : State) : (drawRandom s).1 = Config.randByte s.freeIx := rfl

/-! ### Reading back what was written -/

@[simp] theorem readReg_writeReg_same (s : State) (x : Nibble) (b : Byte) : readReg (writeReg s x b) x = b := by
  simp [readReg, writeReg]

theorem readReg_writeReg_ne (s : State) (x r : Nibble) (b : Byte) (h : r ≠ x) :
    readReg (writeReg s x b) r = readReg s r := by
  have hne : x.toNat ≠ r.toNat := fun e => h (BitVec.eq_of_toNat_eq e.symm)
  simp [readReg, writeReg, hne]

/-- A register read looks at V alone. -/
theorem readReg_congr {s t : State} (h : t.v = s.v) (x : Nibble) : readReg t x = readReg s x := by
  simp [readReg, h]

@[simp] theorem readReg_setPc (s : State) (w : Word) (x : Nibble) : readReg (setPc s w) x = readReg s x := rfl

@[simp] theorem readReg_setI (s : State) (w : Word) (x : Nibble) : readReg (setI s w) x = readReg s x := rfl

@[simp] theorem readReg_setDp (s : State) (x : Nibble) : readReg (setDp s) x = readReg s x := rfl

@[simp] theorem readReg_flipCell (s : State) (k : Nat) (x : Nibble) : readReg (flipCell s k) x = readReg s x := rfl

@[simp] theorem readReg_push (s : State) (w : Word) (x : Nibble) : readReg (push s w) x = readReg s x := rfl

@[simp] theorem readReg_pop (s : State) (x : Nibble) : readReg (pop s).2 x = readReg s x := rfl

@[simp] theorem readReg_drawRandom (s : State) (x : Nibble) : readReg (drawRandom s).2 x = readReg s x := rfl

@[simp] theorem readReg_beginStep (s : State) (x : Nibble) : readReg (beginStep s) x = readReg s x := rfl

@[simp] theorem readReg_timerTick (s : State) (x : Nibble) : readReg (timerTick s) x = readReg s x := rfl

/-- A memory read looks at MEM and the parameters alone. -/
theorem readByte_congr {s t : State} (hm : t.mem = s.mem) (hc : t.cfg = s.cfg) (a : Nat) :
    readByte t a = readByte s a := by
  simp [readByte, hm, hc]

@[simp] theorem fbCell_flipCell_same (s : State) (k : Nat) (hk : k < 2048) :
    fbCell (flipCell s k) k = !fbCell s k := by
  have hm : k % 64 < 64 := Nat.mod_lt _ (by decide)
  simp [fbCell, flipCell, flipBit, hk, hm]

theorem fbCell_flipCell_ne (s : State) (k j : Nat) (h : j ≠ k) : fbCell (flipCell s k) j = fbCell s j := by
  unfold fbCell flipCell flipBit
  by_cases hk : k < 2048
  · by_cases hj : j < 2048
    · simp only [hj, hk, dif_pos]
      by_cases hr : k / 64 = j / 64
      · have hc : k % 64 ≠ j % 64 := by omega
        simp [hr, BitVec.getLsbD_twoPow, hc]
      · rw [Vector.getElem_set_ne _ _ hr]
    · simp [hj]
  · simp [hk]

/-- Where a cell lies: column `x` of row `y` (10_state.md rule R30). -/
theorem fbCell_row_col (s : State) {x y : Nat} (hx : x < 64) (hy : y < 32) :
    fbCell s (y * 64 + x) = s.fb[y].getLsbD x := by
  have hr : (y * 64 + x) / 64 = y := by omega
  have hc : (y * 64 + x) % 64 = x := by omega
  simp [fbCell, hr, hc, show y * 64 + x < 2048 by omega]

/-! ### observe -/

section

variable (s : State)

@[simp] theorem observe_dp : (observe s).dp = s.dp := rfl
@[simp] theorem observe_tone : (observe s).tone = s.tone := rfl
@[simp] theorem observe_awaiting : (observe s).awaiting = s.awaiting := rfl
@[simp] theorem observe_halt : (observe s).halt = s.halt := rfl
@[simp] theorem observe_record :
    (observe s).record = if s.halt then some (s.fcause, s.faddr, s.fop) else none := rfl

end

end Sys2Proof.Machine
end

