-- ==== Sys2Proof/Laws/Memory.lean ====
section
/-! SUPPORT. The laws of memory: a read after a write (20_memory.md rules R52, R53), and that every memory operation
keeps the canonical form. -/

namespace Sys2Proof.Machine

/-! ### What a listed memory is -/

theorem Memory.wf_nil (cfg : Config) : Memory.wf cfg [] = true := rfl

/-- The canonical form of a memory with one entry more. -/
theorem Memory.wf_cons (cfg : Config) (a : Nat) (v : Byte) (t : Memory) :
    Memory.wf cfg ((a, v) :: t) = true ↔
      a ≤ 0xFFF ∧ v ≠ resetByte cfg a ∧ (∀ c ∈ t, a < c.1) ∧ Memory.wf cfg t = true := by
  simp [Memory.wf, and_assoc]

/-- An address below every listed one reads as at reset. -/
theorem Memory.get_of_lt (cfg : Config) (t : Memory) (a : Nat) (h : ∀ c ∈ t, a < c.1) :
    Memory.get cfg t a = resetByte cfg a := by
  induction t with
  | nil => rfl
  | cons c t ih =>
    have hc : a < c.1 := h c (by simp)
    rw [show c = (c.1, c.2) from rfl, Memory.get, if_neg (by omega)]
    exact ih fun d hd => h d (List.mem_cons_of_mem _ hd)

theorem Memory.get_insert (cfg : Config) (m : Memory) (a b : Nat) (v : Byte) :
    Memory.get cfg (Memory.insert m a v) b = if b = a then v else Memory.get cfg m b := by
  induction m with
  | nil => simp [Memory.insert, Memory.get]
  | cons c t ih =>
    obtain ⟨d, w⟩ := c
    by_cases h1 : a < d
    · simp [Memory.insert, h1, Memory.get]
    · by_cases h2 : a = d
      · subst h2
        by_cases hb : b = a <;> simp [Memory.insert, Memory.get, hb]
      · simp only [Memory.insert, h1, h2, if_false, Memory.get, ih]
        by_cases hb : b = a
        · subst hb; simp [h2]
        · simp [hb]

theorem Memory.mem_insert (m : Memory) (a : Nat) (v : Byte) (c : Host.Cell) (h : c ∈ Memory.insert m a v) :
    c = (a, v) ∨ c ∈ m := by
  induction m with
  | nil => simpa [Memory.insert] using h
  | cons d t ih =>
    obtain ⟨d, w⟩ := d
    simp only [Memory.insert] at h
    split at h
    · simpa using h
    · split at h
      · rcases List.mem_cons.1 h with h | h
        · exact .inl h
        · exact .inr (List.mem_cons_of_mem _ h)
      · rcases List.mem_cons.1 h with h | h
        · exact .inr (by simp [h])
        · rcases ih h with h | h
          · exact .inl h
          · exact .inr (List.mem_cons_of_mem _ h)

theorem Memory.mem_erase (m : Memory) (a : Nat) (c : Host.Cell) (h : c ∈ Memory.erase m a) : c ∈ m := by
  induction m with
  | nil => simp [Memory.erase] at h
  | cons d t ih =>
    obtain ⟨d, w⟩ := d
    simp only [Memory.erase] at h
    split at h
    · exact List.mem_cons_of_mem _ h
    · rcases List.mem_cons.1 h with h | h
      · simp [h]
      · exact List.mem_cons_of_mem _ (ih h)

theorem Memory.get_erase (cfg : Config) (m : Memory) (hm : Memory.wf cfg m = true) (a b : Nat) :
    Memory.get cfg (Memory.erase m a) b = if b = a then resetByte cfg a else Memory.get cfg m b := by
  induction m with
  | nil => by_cases h : b = a <;> simp [Memory.erase, Memory.get, h]
  | cons c t ih =>
    obtain ⟨d, w⟩ := c
    obtain ⟨-, -, hlt, ht⟩ := (Memory.wf_cons cfg d w t).1 hm
    by_cases h2 : a = d
    · subst h2
      by_cases hb : b = a
      · subst hb; simp [Memory.erase, Memory.get_of_lt cfg t b hlt]
      · simp [Memory.erase, Memory.get, hb]
    · simp only [Memory.erase, h2, if_false, Memory.get, ih ht]
      by_cases hb : b = a
      · subst hb; simp [h2]
      · simp [hb]

/-- A read after a write: the byte written at its address, what was there elsewhere (rules R52, R53). -/
theorem Memory.get_set (cfg : Config) (m : Memory) (hm : Memory.wf cfg m = true) (a b : Nat) (v : Byte) :
    Memory.get cfg (Memory.set cfg m a v) b = if b = a then v else Memory.get cfg m b := by
  unfold Memory.set
  split
  · next h => simp [Memory.get_erase cfg m hm, h]
  · simp [Memory.get_insert]

/-! ### The canonical form is kept -/

theorem Memory.wf_insert (cfg : Config) (m : Memory) (hm : Memory.wf cfg m = true) (a : Nat) (v : Byte)
    (ha : a ≤ 0xFFF) (hv : v ≠ resetByte cfg a) : Memory.wf cfg (Memory.insert m a v) = true := by
  induction m with
  | nil => simp [Memory.insert, Memory.wf_cons, ha, hv, Memory.wf_nil]
  | cons c t ih =>
    obtain ⟨d, w⟩ := c
    obtain ⟨hd, hw, hlt, ht⟩ := (Memory.wf_cons cfg d w t).1 hm
    by_cases h1 : a < d
    · simp only [Memory.insert, h1, if_true, Memory.wf_cons]
      refine ⟨ha, hv, ?_, hd, hw, hlt, ht⟩
      intro c hc
      rcases List.mem_cons.1 hc with rfl | hc
      · exact h1
      · exact h1.trans (hlt c hc)
    · by_cases h2 : a = d
      · subst h2
        simp only [Memory.insert, Nat.lt_irrefl, if_false, if_true, Memory.wf_cons]
        exact ⟨ha, hv, hlt, ht⟩
      · simp only [Memory.insert, h1, h2, if_false, Memory.wf_cons]
        refine ⟨hd, hw, ?_, ih ht⟩
        intro c hc
        rcases Memory.mem_insert t a v c hc with rfl | hc
        · show d < a
          omega
        · exact hlt c hc

theorem Memory.wf_erase (cfg : Config) (m : Memory) (hm : Memory.wf cfg m = true) (a : Nat) :
    Memory.wf cfg (Memory.erase m a) = true := by
  induction m with
  | nil => exact hm
  | cons c t ih =>
    obtain ⟨d, w⟩ := c
    obtain ⟨hd, hw, hlt, ht⟩ := (Memory.wf_cons cfg d w t).1 hm
    by_cases h2 : a = d
    · simpa [Memory.erase, h2] using ht
    · simp only [Memory.erase, h2, if_false, Memory.wf_cons]
      exact ⟨hd, hw, fun c hc => hlt c (Memory.mem_erase t a c hc), ih ht⟩

theorem Memory.wf_set (cfg : Config) (m : Memory) (hm : Memory.wf cfg m = true) (a : Nat) (v : Byte)
    (ha : a ≤ 0xFFF) : Memory.wf cfg (Memory.set cfg m a v) = true := by
  unfold Memory.set
  split
  · exact Memory.wf_erase cfg m hm a
  · next h => exact Memory.wf_insert cfg m hm a v ha h

theorem Memory.wf_setAll (cfg : Config) (bs : List Byte) (m : Memory) (hm : Memory.wf cfg m = true) (a : Nat)
    (ha : a + bs.length ≤ 4096) : Memory.wf cfg (Memory.setAll cfg m a bs) = true := by
  induction bs generalizing m a with
  | nil => exact hm
  | cons b bs ih =>
    simp only [List.length_cons] at ha
    exact ih _ (Memory.wf_set cfg m hm a b (by omega)) _ (by omega)

theorem Memory.wf_ofFun (cfg : Config) (f : Nat → Byte) (as : List Nat) (has : ∀ a ∈ as, a ≤ 0xFFF) :
    Memory.wf cfg (Memory.ofFun cfg f as) = true := by
  induction as with
  | nil => rfl
  | cons a as ih =>
    exact Memory.wf_set cfg _ (ih fun b hb => has b (List.mem_cons_of_mem _ hb)) _ _ (has a (by simp))

/-- What loaded bytes read as, and that nothing else changes (70_reset_and_hazards.md rule R206). -/
theorem Memory.get_setAll (cfg : Config) (bs : List Byte) (m : Memory) (hm : Memory.wf cfg m = true) (a b : Nat)
    (ha : a + bs.length ≤ 4096) :
    Memory.get cfg (Memory.setAll cfg m a bs) b =
      if h : a ≤ b ∧ b < a + bs.length then bs[b - a]'(by omega) else Memory.get cfg m b := by
  induction bs generalizing m a with
  | nil =>
    rw [dif_neg (by simp)]
    rfl
  | cons c bs ih =>
    simp only [List.length_cons] at ha
    have hs := Memory.wf_set cfg m hm a c (by omega)
    rw [show Memory.setAll cfg m a (c :: bs) = Memory.setAll cfg (Memory.set cfg m a c) (a + 1) bs from rfl,
      ih _ hs _ (by omega)]
    by_cases h1 : a + 1 ≤ b ∧ b < a + 1 + bs.length
    · rw [dif_pos h1, dif_pos (by simp only [List.length_cons]; omega)]
      have : b - a = (b - (a + 1)) + 1 := by omega
      simp [this]
    · rw [dif_neg h1, Memory.get_set cfg m hm]
      by_cases hb : b = a
      · subst hb; simp
      · rw [if_neg hb, dif_neg (by simp only [List.length_cons]; omega)]

/-! ### The access primitives -/

/-- Where a bounded access goes, when it goes anywhere (rule R54). -/
theorem boundAddress_ok {cfg : Config} {a a' : Nat} (h : boundAddress cfg a = .ok a') :
    a' = a % 4096 ∧ a' ≤ 0xFFF ∧ (a ≤ 0xFFF ∨ cfg.oobPolicy = .wrap) := by
  unfold boundAddress at h
  split at h
  · next hle => injection h with h; subst h; exact ⟨by omega, hle, .inl hle⟩
  · split at h
    · exact absurd h (by simp)
    · next hp => injection h with h; subst h; exact ⟨rfl, by omega, .inr hp⟩

/-- The one fault of the bounds rule, and when it is raised (rule R54). -/
theorem boundAddress_error {cfg : Config} {a : Nat} {c : Cause} (h : boundAddress cfg a = .error c) :
    c = .addressOutOfRange ∧ 0xFFF < a ∧ cfg.oobPolicy = .fault := by
  unfold boundAddress at h
  split at h
  · exact absurd h (by simp)
  · next hle =>
    split at h
    · next hp => injection h with h; exact ⟨h.symm, by omega, hp⟩
    · exact absurd h (by simp)

/-- An access in range, or under `wrap`, goes to the address modulo 4096. -/
theorem boundAddress_of_ok {cfg : Config} {a : Nat} (h : a ≤ 0xFFF ∨ cfg.oobPolicy = .wrap) :
    boundAddress cfg a = .ok (a % 4096) := by
  unfold boundAddress
  by_cases ha : a ≤ 0xFFF
  · rw [if_pos ha, Nat.mod_eq_of_lt (by omega)]
  · rw [if_neg ha]
    rcases h with h | h
    · exact absurd h ha
    · simp [h]

/-- An access above 0xFFF under `fault` raises AddressOutOfRange. -/
theorem boundAddress_of_error {cfg : Config} {a : Nat} (h : 0xFFF < a) (hp : cfg.oobPolicy = .fault) :
    boundAddress cfg a = .error .addressOutOfRange := by
  simp [boundAddress, hp, show ¬ a ≤ 0xFFF by omega]

theorem memRead_of_ok {s : State} {a : Nat} (h : a ≤ 0xFFF ∨ s.cfg.oobPolicy = .wrap) :
    memRead s a = .ok (readByte s (a % 4096)) := by
  simp [memRead, boundAddress_of_ok h]

theorem memRead_of_error {s : State} {a : Nat} (h : 0xFFF < a) (hp : s.cfg.oobPolicy = .fault) :
    memRead s a = .error .addressOutOfRange := by
  simp [memRead, boundAddress_of_error h hp]

theorem memRead_error {s : State} {a : Nat} {c : Cause} (h : memRead s a = .error c) :
    c = .addressOutOfRange ∧ 0xFFF < a ∧ s.cfg.oobPolicy = .fault := by
  unfold memRead at h
  split at h
  · exact absurd h (by simp)
  · next hb => injection h with h; subst h; exact boundAddress_error hb

theorem memWrite_of_ok {s : State} {a : Nat} (b : Byte) (h : a ≤ 0xFFF ∨ s.cfg.oobPolicy = .wrap) :
    memWrite s a b = .ok { s with mem := Memory.set s.cfg s.mem (a % 4096) b } := by
  simp [memWrite, boundAddress_of_ok h]

/-- Everything a store can do: it writes MEM and nothing else. -/
theorem memWrite_ok {s t : State} {a : Nat} {b : Byte} (h : memWrite s a b = .ok t) :
    t = { s with mem := Memory.set s.cfg s.mem (a % 4096) b } ∧ (a ≤ 0xFFF ∨ s.cfg.oobPolicy = .wrap) := by
  unfold memWrite at h
  split at h
  · next hb =>
    obtain ⟨rfl, -, hr⟩ := boundAddress_ok hb
    injection h with h
    exact ⟨h.symm, hr⟩
  · exact absurd h (by simp)

theorem memWrite_error {s : State} {a : Nat} {b : Byte} {c : Cause} (h : memWrite s a b = .error c) :
    c = .addressOutOfRange ∧ 0xFFF < a ∧ s.cfg.oobPolicy = .fault := by
  unfold memWrite at h
  split at h
  · exact absurd h (by simp)
  · next hb => injection h with h; subst h; exact boundAddress_error hb

/-- Everything a run of stores can do: it writes MEM, keeps its form, and nothing else. -/
theorem storeBytes_ok {bs : List Byte} {a : Nat} {s t : State} (h : storeBytes bs a s = .ok t) :
    ∃ m, t = { s with mem := m } ∧ (Memory.wf s.cfg s.mem = true → Memory.wf s.cfg m = true) := by
  induction bs generalizing a s with
  | nil => injection h with h; exact ⟨s.mem, h.symm, id⟩
  | cons b bs ih =>
    simp only [storeBytes] at h
    split at h
    · next s' hw =>
      obtain ⟨rfl, -⟩ := memWrite_ok hw
      obtain ⟨m, rfl, hm⟩ := ih h
      exact ⟨m, rfl, fun hs => hm (Memory.wf_set _ _ hs _ _ (by omega))⟩
    · exact absurd h (by simp)

theorem storeBytes_error {bs : List Byte} {a : Nat} {s : State} {c : Cause} (h : storeBytes bs a s = .error c) :
    c = .addressOutOfRange ∧ s.cfg.oobPolicy = .fault := by
  induction bs generalizing a s with
  | nil => exact absurd h (by simp [storeBytes])
  | cons b bs ih =>
    simp only [storeBytes] at h
    split at h
    · next s' hw =>
      obtain ⟨rfl, -⟩ := memWrite_ok hw
      have := ih h
      exact this
    · next hw =>
      injection h with h
      subst h
      exact ⟨(memWrite_error hw).1, (memWrite_error hw).2.2⟩

end Sys2Proof.Machine
end

