-- ==== Sys2Proof/Laws/Ops.lean ====
section
/-! SUPPORT. One lemma per shared operation that says everything it can do, and how frames compose. Later proofs cite
these and do not unfold the operations. -/

namespace Sys2Proof.Machine

/-! ### Frames -/

theorem Part.same_refl (s : State) (p : Part) : p.same s s := by
  cases p <;> simp [Part.same]

theorem Part.same_trans {s t u : State} {p : Part} (h : p.same s t) (h' : p.same t u) : p.same s u := by
  cases p <;> simp_all [Part.same]

theorem Frame.refl (ps : List Part) (s : State) : Frame ps s s := fun p _ => Part.same_refl s p

theorem Frame.trans {ps : List Part} {s t u : State} (h : Frame ps s t) (h' : Frame ps t u) : Frame ps s u :=
  fun p hp => Part.same_trans (h p hp) (h' p hp)

/-- A frame that allows more is weaker. -/
theorem Frame.mono {ps qs : List Part} {s t : State} (h : Frame ps s t) (hs : ps ⊆ qs) : Frame qs s t :=
  fun p hp => h p fun hq => hp (hs hq)

theorem RegsExcept.trans {xs : List Nibble} {s t u : State} (h : RegsExcept xs s t) (h' : RegsExcept xs t u) :
    RegsExcept xs s u := fun r hr => (h' r hr).trans (h r hr)

theorem frame_writeReg (s : State) (x : Nibble) (b : Byte) : Frame [.v] s (writeReg s x b) := by
  intro p hp
  cases p <;> simp_all [Part.same, readByte]

theorem regsExcept_writeReg (s : State) (x : Nibble) (b : Byte) : RegsExcept [x] s (writeReg s x b) :=
  fun _ hr => readReg_writeReg_ne s x _ b (by simpa using hr)

/-- Everything a register write does. -/
theorem onlyReg_writeReg (s : State) (x : Nibble) (b : Byte) : OnlyReg x b s (writeReg s x b) :=
  ⟨readReg_writeReg_same s x b, regsExcept_writeReg s x b, frame_writeReg s x b⟩

theorem frame_setPc (s : State) (w : Word) : Frame [.pc] s (setPc s w) := by
  intro p hp
  cases p <;> simp_all [Part.same, readByte]

theorem frame_setI (s : State) (w : Word) : Frame [.i] s (setI s w) := by
  intro p hp
  cases p <;> simp_all [Part.same, readByte]

theorem frame_setDp (s : State) : Frame [.dp] s (setDp s) := by
  intro p hp
  cases p <;> simp_all [Part.same, readByte]

theorem frame_flipCell (s : State) (k : Nat) : Frame [.fb] s (flipCell s k) := by
  intro p hp
  cases p <;> simp_all [Part.same, readByte]

theorem frame_push (s : State) (w : Word) : Frame [.stack, .sp] s (push s w) := by
  intro p hp
  cases p <;> simp_all [Part.same, readByte]

theorem frame_pop (s : State) : Frame [.stack, .sp] s (pop s).2 := by
  intro p hp
  cases p <;> simp_all [Part.same, readByte]

/-- A skip changes PC alone, by 2 if taken (41_control_transfer.md rule R107). -/
theorem skipIf_spec (s : State) (c : Bool) :
    (skipIf s c).pc = (if c then s.pc + 2#16 else s.pc) ∧ Frame [.pc] s (skipIf s c) := by
  cases c
  · exact ⟨rfl, Frame.refl _ s⟩
  · exact ⟨rfl, frame_setPc s _⟩

theorem readReg_skipIf (s : State) (c : Bool) (x : Nibble) : readReg (skipIf s c) x = readReg s x := by
  cases c <;> rfl

/-- A fault entry leaves alone what is not the core's to lose (60_exceptions.md rule R191). -/
theorem frame_enterFault (c : Cause) (a op : Word) (s : State) :
    Frame [.v, .i, .pc, .stack, .sp, .dt, .st, .fb, .dp, .kc, .halt, .fcause, .faddr, .fop, .mem, .tone, .awaiting,
      .freeIx] s (enterFault c a op s) := by
  intro p hp
  cases p
  all_goals first | exact absurd hp (by decide) | skip
  all_goals
    unfold Part.same
    simp only [enterFault_key, enterFault_kev, enterFault_cfg, enterFault_loadOpen]

/-- Everything a fault entry does (60_exceptions.md rules R181, R191). -/
theorem faulted_enterFault (c : Cause) (a op : Word) (s : State) : Faulted c a op s (enterFault c a op s) := by
  unfold Faulted
  exact ⟨enterFault_halt s c a op, enterFault_fcause s c a op, enterFault_faddr s c a op, enterFault_fop s c a op,
    enterFault_tone s c a op, enterFault_awaiting s c a op, (frame_enterFault c a op s).mono (by decide)⟩

theorem mem_allAddresses {a : Nat} (h : a ∈ allAddresses) : a ≤ 0xFFF := by
  unfold allAddresses at h
  rw [List.mem_range] at h
  omega

/-- Memory after a fault is unspecified, but it is a memory. -/
theorem wf_faultedMemory (s : State) : Memory.wf s.cfg (faultedMemory s) = true := by
  unfold faultedMemory
  exact Memory.wf_ofFun _ _ _ fun _ => mem_allAddresses

/-- A meaning that ends by `conclude` completes with its result, or raises the fault its rule reached. -/
theorem conclude_cases {i : Instr} {s t : State} {r : Except Cause State} (h : conclude i s r = .next t) :
    r = .ok t ∨ ∃ c, r = .error c ∧ t = enterFault c (s.pc - 2#16) (encode i) s := by
  cases r with
  | ok u => simp only [conclude, Host.Outcome.next.injEq] at h; exact .inl (by rw [h])
  | error c => simp only [conclude, raise, Host.Outcome.next.injEq] at h; exact .inr ⟨c, rfl, h.symm⟩

/-! ### Loops -/

/-- What every iteration keeps, the loop keeps. -/
theorem forEach_preserves {P : State → State → Prop} (hr : ∀ s, P s s)
    (ht : ∀ s t u, P s t → P t u → P s u) {f : Nat → State → Except Cause State}
    (hf : ∀ k s t, f k s = .ok t → P s t) {ks : List Nat} {s t : State} (h : forEach f ks s = .ok t) : P s t := by
  induction ks generalizing s with
  | nil => injection h with h; exact h ▸ hr s
  | cons k ks ih =>
    simp only [forEach] at h
    split at h
    · next u hu => exact ht _ _ _ (hf k s u hu) (ih h)
    · exact absurd h (by simp)

/-- A loop raises only what an iteration raises. -/
theorem forEach_error {P : Cause → Prop} {f : Nat → State → Except Cause State}
    (hf : ∀ k s c, f k s = .error c → P c) {ks : List Nat} {s : State} {c : Cause}
    (h : forEach f ks s = .error c) : P c := by
  induction ks generalizing s with
  | nil => exact absurd h (by simp [forEach])
  | cons k ks ih =>
    simp only [forEach] at h
    split at h
    · exact ih h
    · next hu => injection h with h; exact h ▸ hf k s _ hu

theorem forEach_append {f : Nat → State → Except Cause State} (ks ls : List Nat) (s : State) :
    forEach f (ks ++ ls) s =
      match forEach f ks s with
      | .ok t => forEach f ls t
      | .error c => .error c := by
  induction ks generalizing s with
  | nil => rfl
  | cons k ks ih =>
    simp only [List.cons_append, forEach]
    split <;> simp_all

/-! ### Loads -/

/-- Everything one load of LD Vx,[I] can do. -/
theorem loadReg_ok {k : Nat} {s t : State} (h : loadReg k s = .ok t) :
    t = writeReg s (BitVec.ofNat 4 k) (readByte s ((s.i.toNat + k) % 4096)) := by
  unfold loadReg at h
  split at h
  · next b hb =>
    injection h with h
    subst h
    unfold memRead at hb
    split at hb
    · next hb' =>
      injection hb with hb
      rw [← hb, (boundAddress_ok hb').1]
      rfl
    · exact absurd hb (by simp)
  · exact absurd h (by simp)

/-- A bulk load writes V and nothing else. -/
theorem forEach_loadReg_frame {ks : List Nat} {s t : State} (h : forEach loadReg ks s = .ok t) : Frame [.v] s t :=
  forEach_preserves (P := Frame [.v]) (Frame.refl _) (fun _ _ _ => Frame.trans)
    (fun _ s _ hk => loadReg_ok hk ▸ frame_writeReg s _ _) h

/-! ### Drawing -/

/-- The cell a pixel goes to is inside the framebuffer (44_display.md rule R152). -/
theorem boundPixel_lt {cfg : Config} {px py k : Nat} (h : boundPixel cfg px py = .ok k) : k < 2048 := by
  unfold boundPixel at h
  split at h
  · injection h with h; omega
  · split at h
    · exact absurd h (by simp)
    · injection h with h; omega

/-- Where a pixel goes, when it goes anywhere. -/
theorem boundPixel_ok {cfg : Config} {px py k : Nat} (h : boundPixel cfg px py = .ok k) :
    k = py % 32 * 64 + px % 64 ∧ ((px ≤ 63 ∧ py ≤ 31) ∨ cfg.oobPolicy = .wrap) := by
  unfold boundPixel at h
  split at h
  · next hb => injection h with h; exact ⟨by omega, .inl hb⟩
  · split at h
    · exact absurd h (by simp)
    · next hp => injection h with h; exact ⟨h.symm, .inr hp⟩

/-- One pixel changes the framebuffer and, on a collision, VF. -/
theorem frame_plot (s : State) (k : Nat) : Frame [.v, .fb] s (plot s k) := by
  unfold plot
  split
  · exact Frame.trans ((frame_writeReg s _ _).mono (by simp)) ((frame_flipCell _ k).mono (by simp))
  · exact (frame_flipCell s k).mono (by simp)

theorem regsExcept_plot (s : State) (k : Nat) : RegsExcept [0xF#4] s (plot s k) := by
  intro r hr
  unfold plot
  split
  · exact (readReg_flipCell _ k r).trans (regsExcept_writeReg s 0xF#4 1#8 r hr)
  · rfl

/-- What drawing changes: the framebuffer and VF. -/
def DrawFrame (s t : State) : Prop := Frame [.v, .fb] s t ∧ RegsExcept [0xF#4] s t

theorem DrawFrame.refl (s : State) : DrawFrame s s := ⟨Frame.refl _ s, fun _ _ => rfl⟩

theorem DrawFrame.trans (s t u : State) (h : DrawFrame s t) (h' : DrawFrame t u) : DrawFrame s u :=
  ⟨h.1.trans h'.1, h.2.trans h'.2⟩

theorem drawColumn_frame {b : Byte} {xs py col : Nat} {s t : State} (h : drawColumn b xs py col s = .ok t) :
    DrawFrame s t := by
  unfold drawColumn at h
  split at h
  · split at h
    · injection h with h; subst h; exact ⟨frame_plot s _, regsExcept_plot s _⟩
    · exact absurd h (by simp)
  · injection h with h; subst h; exact DrawFrame.refl s

theorem drawRow_frame {xs ys row : Nat} {s t : State} (h : drawRow xs ys row s = .ok t) : DrawFrame s t := by
  unfold drawRow at h
  split at h
  · exact forEach_preserves DrawFrame.refl DrawFrame.trans (fun _ _ _ => drawColumn_frame) h
  · exact absurd h (by simp)

/-- Everything the sprite loop of DRW can change. -/
theorem forEach_drawRow_frame {xs ys : Nat} {rows : List Nat} {s t : State}
    (h : forEach (drawRow xs ys) rows s = .ok t) : DrawFrame s t :=
  forEach_preserves DrawFrame.refl DrawFrame.trans (fun _ _ _ => drawRow_frame) h

/-! ### What the bounds points raise, and where the flag goes -/

/-- The one fault of the grid bound, and when it is raised (44_display.md rule R152). -/
theorem boundPixel_error {cfg : Config} {px py : Nat} {c : Cause} (h : boundPixel cfg px py = .error c) :
    c = .drawOutOfBounds ∧ ¬ (px ≤ 63 ∧ py ≤ 31) ∧ cfg.oobPolicy = .fault := by
  unfold boundPixel at h
  split at h
  · exact absurd h (by simp)
  · next hb =>
    split at h
    · next hp => injection h with h; exact ⟨h.symm, hb, hp⟩
    · exact absurd h (by simp)

/-- A key index names the cell modulo 16, in range or under `wrap` (45_input_timers_random.md rule R168). -/
theorem keyCell_of_ok {s : State} {vx : Byte} (h : vx.toNat ≤ 15 ∨ s.cfg.oobPolicy = .wrap) :
    keyCell s vx = .ok (readKey s vx.toNat) := by
  unfold keyCell
  split
  · rfl
  · next hv =>
    rcases h with h | h
    · exact absurd h hv
    · simp [h, readKey]

/-- The one fault of a key index, and when it is raised (rule R168). -/
theorem keyCell_error {s : State} {vx : Byte} {c : Cause} (h : keyCell s vx = .error c) :
    c = .keyIndexOutOfRange ∧ 15 < vx.toNat ∧ s.cfg.oobPolicy = .fault := by
  unfold keyCell at h
  split at h
  · exact absurd h (by simp)
  · next hv =>
    split at h
    · next hp => injection h with h; exact ⟨h.symm, by omega, hp⟩
    · exact absurd h (by simp)

/-- Everything `WriteResultAndFlag` does (42_load_alu.md rule R121). -/
theorem resultAndFlag_write (s : State) (x : Nibble) (r : Byte) (f : Bool) :
    ResultAndFlag x r (flagByte f) s (writeResultAndFlag s x r f) := by
  have two (a b : Nibble) (u w : Byte) : Frame [.v] s (writeReg (writeReg s a u) b w) :=
    (frame_writeReg s a u).trans (frame_writeReg _ b w)
  unfold ResultAndFlag writeResultAndFlag
  cases hv : s.cfg.vfWriteOrder
  · refine ⟨fun hx => ⟨by simp, ?_⟩, fun hx _ => by subst hx; simp, fun _ h => by simp at h, fun k hk => ?_, two _ _ _ _⟩
    · simp [readReg_writeReg_ne _ _ _ _ hx.symm]
    · simp at hk; simp [readReg_writeReg_ne, hk]
  · refine ⟨fun hx => ⟨?_, by simp⟩, fun _ h => by simp at h, fun _ _ => by simp, fun k hk => ?_, two _ _ _ _⟩
    · simp [readReg_writeReg_ne _ _ _ _ hx]
    · simp at hk; simp [readReg_writeReg_ne, hk]

/-- A loop whose iterations keep the parameters raises only what an iteration raises under those parameters. -/
theorem forEach_error_cfg {P : Cause → Prop} {f : Nat → State → Except Cause State}
    (hk : ∀ k s t, f k s = .ok t → t.cfg = s.cfg)
    (hf : ∀ k s c, f k s = .error c → P c ∧ s.cfg.oobPolicy = .fault) {ks : List Nat} {s : State} {c : Cause}
    (h : forEach f ks s = .error c) : P c ∧ s.cfg.oobPolicy = .fault := by
  induction ks generalizing s with
  | nil => exact absurd h (by simp [forEach])
  | cons k ks ih =>
    simp only [forEach] at h
    split at h
    · next u hu =>
      have := ih h
      rwa [hk _ _ _ hu] at this
    · next hu => injection h with h; subst h; exact hf _ _ _ hu

/-- A bulk load raises AddressOutOfRange alone (43_index_memory.md rule R145). -/
theorem forEach_loadReg_error {ks : List Nat} {s : State} {c : Cause} (h : forEach loadReg ks s = .error c) :
    c = .addressOutOfRange ∧ s.cfg.oobPolicy = .fault := by
  refine forEach_error_cfg (P := fun c => c = .addressOutOfRange) (fun _ _ _ hk => by rw [loadReg_ok hk]; rfl) ?_ h
  intro k u d hd
  unfold loadReg at hd
  split at hd
  · exact absurd hd (by simp)
  · next hm => injection hd with hd; subst hd; exact ⟨(memRead_error hm).1, (memRead_error hm).2.2⟩

/-- A row of a sprite raises one of two faults (60_exceptions.md rule R189). -/
theorem drawRow_error {xs ys row : Nat} {s : State} {c : Cause} (h : drawRow xs ys row s = .error c) :
    (c = .addressOutOfRange ∨ c = .drawOutOfBounds) ∧ s.cfg.oobPolicy = .fault := by
  unfold drawRow at h
  split at h
  · refine forEach_error_cfg (P := fun c => c = .addressOutOfRange ∨ c = .drawOutOfBounds)
      (fun _ _ _ hk => (drawColumn_frame hk).1 .cfg (by simp)) ?_ h
    intro k u d hd
    unfold drawColumn at hd
    split at hd
    · split at hd
      · exact absurd hd (by simp)
      · next hb => injection hd with hd; subst hd; exact ⟨.inr (boundPixel_error hb).1, (boundPixel_error hb).2.2⟩
    · exact absurd hd (by simp)
  · next hm => injection h with h; subst h; exact ⟨.inl (memRead_error hm).1, (memRead_error hm).2.2⟩

/-- The sprite loop of DRW raises one of two faults. -/
theorem forEach_drawRow_error {xs ys : Nat} {rows : List Nat} {s : State} {c : Cause}
    (h : forEach (drawRow xs ys) rows s = .error c) :
    (c = .addressOutOfRange ∨ c = .drawOutOfBounds) ∧ s.cfg.oobPolicy = .fault :=
  forEach_error_cfg (P := fun c => c = .addressOutOfRange ∨ c = .drawOutOfBounds)
    (fun _ _ _ hk => (drawRow_frame hk).1 .cfg (by simp)) (fun _ _ _ => drawRow_error) h

end Sys2Proof.Machine
end

