-- ==== Sys2Proof/Laws/PerInstr.lean ====
section
/-! SUPPORT. A fact about every instruction as syntax, one lemma per constructor: its word has the mask and match of its
own row of the opcode map (30_encoding.md rule R75). -/

namespace Sys2Proof.Laws.EncodeFitsRow

open Sys2Proof

/-- The word of the instruction matches the row of the opcode map that has its mnemonic. -/
def Statement (i : Instr) : Prop :=
  ∃ r ∈ opcodeMap, r.mnemonic = i.mnemonic ∧ encode i &&& r.mask = r.pattern

/-- A row of the map, given with its membership and the two facts that remain. -/
theorem intro {i : Instr} (r : OpcodeRow) (hr : r ∈ opcodeMap) (hn : r.mnemonic = i.mnemonic)
    (hw : encode i &&& r.mask = r.pattern) : Statement i := ⟨r, hr, hn, hw⟩

theorem cls (ign : Byte) : Statement (.cls ign) :=
  intro ⟨"CLS", 0xF00F#16, 0x0000#16⟩ (by decide) rfl (by simp [encode, and_F00F]; decide)

theorem ret (ign : Byte) : Statement (.ret ign) :=
  intro ⟨"RET", 0xF00F#16, 0x000E#16⟩ (by decide) rfl (by simp [encode, and_F00F]; decide)

theorem jpNnn (nnn : Addr12) : Statement (.jpNnn nnn) :=
  intro ⟨"JP_nnn", 0xF000#16, 0x1000#16⟩ (by decide) rfl (by simp [encode, and_F000]; decide)

theorem callNnn (nnn : Addr12) : Statement (.callNnn nnn) :=
  intro ⟨"CALL_nnn", 0xF000#16, 0x2000#16⟩ (by decide) rfl (by simp [encode, and_F000]; decide)

theorem seVxNn (x : Nibble) (nn : Byte) : Statement (.seVxNn x nn) :=
  intro ⟨"SE_Vx_nn", 0xF000#16, 0x3000#16⟩ (by decide) rfl (by simp [encode, and_F000]; decide)

theorem sneVxNn (x : Nibble) (nn : Byte) : Statement (.sneVxNn x nn) :=
  intro ⟨"SNE_Vx_nn", 0xF000#16, 0x4000#16⟩ (by decide) rfl (by simp [encode, and_F000]; decide)

theorem seVxVy (x : Nibble) (y : Nibble) (n : Nibble) : Statement (.seVxVy x y n) :=
  intro ⟨"SE_Vx_Vy", 0xF000#16, 0x5000#16⟩ (by decide) rfl (by simp [encode, and_F000]; decide)

theorem ldVxNn (x : Nibble) (nn : Byte) : Statement (.ldVxNn x nn) :=
  intro ⟨"LD_Vx_nn", 0xF000#16, 0x6000#16⟩ (by decide) rfl (by simp [encode, and_F000]; decide)

theorem addVxNn (x : Nibble) (nn : Byte) : Statement (.addVxNn x nn) :=
  intro ⟨"ADD_Vx_nn", 0xF000#16, 0x7000#16⟩ (by decide) rfl (by simp [encode, and_F000]; decide)

theorem ldVxVy (x : Nibble) (y : Nibble) : Statement (.ldVxVy x y) :=
  intro ⟨"LD_Vx_Vy", 0xF00F#16, 0x8000#16⟩ (by decide) rfl (by simp [encode, and_F00F]; decide)

theorem orVxVy (x : Nibble) (y : Nibble) : Statement (.orVxVy x y) :=
  intro ⟨"OR_Vx_Vy", 0xF00F#16, 0x8001#16⟩ (by decide) rfl (by simp [encode, and_F00F]; decide)

theorem andVxVy (x : Nibble) (y : Nibble) : Statement (.andVxVy x y) :=
  intro ⟨"AND_Vx_Vy", 0xF00F#16, 0x8002#16⟩ (by decide) rfl (by simp [encode, and_F00F]; decide)

theorem xorVxVy (x : Nibble) (y : Nibble) : Statement (.xorVxVy x y) :=
  intro ⟨"XOR_Vx_Vy", 0xF00F#16, 0x8003#16⟩ (by decide) rfl (by simp [encode, and_F00F]; decide)

theorem addVxVy (x : Nibble) (y : Nibble) : Statement (.addVxVy x y) :=
  intro ⟨"ADD_Vx_Vy", 0xF00F#16, 0x8004#16⟩ (by decide) rfl (by simp [encode, and_F00F]; decide)

theorem subVxVy (x : Nibble) (y : Nibble) : Statement (.subVxVy x y) :=
  intro ⟨"SUB_Vx_Vy", 0xF00F#16, 0x8005#16⟩ (by decide) rfl (by simp [encode, and_F00F]; decide)

theorem shrVx (x : Nibble) (y : Nibble) : Statement (.shrVx x y) :=
  intro ⟨"SHR_Vx", 0xF00F#16, 0x8006#16⟩ (by decide) rfl (by simp [encode, and_F00F]; decide)

theorem shlVx (x : Nibble) (y : Nibble) : Statement (.shlVx x y) :=
  intro ⟨"SHL_Vx", 0xF00F#16, 0x800E#16⟩ (by decide) rfl (by simp [encode, and_F00F]; decide)

theorem sneVxVy (x : Nibble) (y : Nibble) (n : Nibble) : Statement (.sneVxVy x y n) :=
  intro ⟨"SNE_Vx_Vy", 0xF000#16, 0x9000#16⟩ (by decide) rfl (by simp [encode, and_F000]; decide)

theorem ldINnn (nnn : Addr12) : Statement (.ldINnn nnn) :=
  intro ⟨"LD_I_nnn", 0xF000#16, 0xA000#16⟩ (by decide) rfl (by simp [encode, and_F000]; decide)

theorem jpV0Nnn (nnn : Addr12) : Statement (.jpV0Nnn nnn) :=
  intro ⟨"JP_V0_nnn", 0xF000#16, 0xB000#16⟩ (by decide) rfl (by simp [encode, and_F000]; decide)

theorem rndVxNn (x : Nibble) (nn : Byte) : Statement (.rndVxNn x nn) :=
  intro ⟨"RND_Vx_nn", 0xF000#16, 0xC000#16⟩ (by decide) rfl (by simp [encode, and_F000]; decide)

theorem drwVxVyN (x : Nibble) (y : Nibble) (n : Nibble) : Statement (.drwVxVyN x y n) :=
  intro ⟨"DRW_Vx_Vy_n", 0xF000#16, 0xD000#16⟩ (by decide) rfl (by simp [encode, and_F000]; decide)

theorem skpVx (x : Nibble) : Statement (.skpVx x) :=
  intro ⟨"SKP_Vx", 0xF0FF#16, 0xE09E#16⟩ (by decide) rfl (by simp [encode, and_F0FF]; decide)

theorem sknpVx (x : Nibble) : Statement (.sknpVx x) :=
  intro ⟨"SKNP_Vx", 0xF0FF#16, 0xE0A1#16⟩ (by decide) rfl (by simp [encode, and_F0FF]; decide)

theorem ldVxDt (x : Nibble) : Statement (.ldVxDt x) :=
  intro ⟨"LD_Vx_DT", 0xF0FF#16, 0xF007#16⟩ (by decide) rfl (by simp [encode, and_F0FF]; decide)

theorem ldVxK (x : Nibble) : Statement (.ldVxK x) :=
  intro ⟨"LD_Vx_K", 0xF0FF#16, 0xF00A#16⟩ (by decide) rfl (by simp [encode, and_F0FF]; decide)

theorem ldDtVx (x : Nibble) : Statement (.ldDtVx x) :=
  intro ⟨"LD_DT_Vx", 0xF0FF#16, 0xF015#16⟩ (by decide) rfl (by simp [encode, and_F0FF]; decide)

theorem ldStVx (x : Nibble) : Statement (.ldStVx x) :=
  intro ⟨"LD_ST_Vx", 0xF0FF#16, 0xF018#16⟩ (by decide) rfl (by simp [encode, and_F0FF]; decide)

theorem addIVx (x : Nibble) : Statement (.addIVx x) :=
  intro ⟨"ADD_I_Vx", 0xF0FF#16, 0xF01E#16⟩ (by decide) rfl (by simp [encode, and_F0FF]; decide)

theorem ldFVx (x : Nibble) : Statement (.ldFVx x) :=
  intro ⟨"LD_F_Vx", 0xF0FF#16, 0xF029#16⟩ (by decide) rfl (by simp [encode, and_F0FF]; decide)

theorem ldBVx (x : Nibble) : Statement (.ldBVx x) :=
  intro ⟨"LD_B_Vx", 0xF0FF#16, 0xF033#16⟩ (by decide) rfl (by simp [encode, and_F0FF]; decide)

theorem ldMemIVx (x : Nibble) : Statement (.ldMemIVx x) :=
  intro ⟨"LD__I__Vx", 0xF0FF#16, 0xF055#16⟩ (by decide) rfl (by simp [encode, and_F0FF]; decide)

theorem ldVxMemI (x : Nibble) : Statement (.ldVxMemI x) :=
  intro ⟨"LD_Vx__I", 0xF0FF#16, 0xF065#16⟩ (by decide) rfl (by simp [encode, and_F0FF]; decide)

end Sys2Proof.Laws.EncodeFitsRow
end

