-- ==== Sys2Proof/Laws/Step.lean ====
section
/-! SUPPORT. Everything a step can do (40_cycle.md rule R90), said once, and that a meaning always answers a next state. -/

namespace Sys2Proof.Machine

/-- A bounded expression of `conclude` always answers a next state. -/
theorem conclude_next (i : Instr) (s : State) (r : Except Cause State) : ∃ t, conclude i s r = .next t := by
  cases r with
  | ok t => exact ⟨t, rfl⟩
  | error c => exact ⟨_, rfl⟩

/-- No meaning ends in a fault or a refusal of the model: it completes, or takes the fault the spec describes. -/
theorem exec_next (i : Instr) (s : State) : ∃ t, exec i s = .next t := by
  cases i with
  | ret ign => simp only [exec, execRet, raise]; split <;> exact ⟨_, rfl⟩
  | callNnn nnn => simp only [exec, execCallNnn, raise]; split <;> exact ⟨_, rfl⟩
  | ldVxK x => simp only [exec, execLdVxK]; split <;> exact ⟨_, rfl⟩
  | drwVxVyN x y n => exact conclude_next _ _ _
  | skpVx x => exact conclude_next _ _ _
  | sknpVx x => exact conclude_next _ _ _
  | ldBVx x => exact conclude_next _ _ _
  | ldMemIVx x => exact conclude_next _ _ _
  | ldVxMemI x => exact conclude_next _ _ _
  | _ => exact ⟨_, rfl⟩

@[simp] theorem readByte_beginStep (s : State) (a : Nat) : readByte (beginStep s) a = readByte s a := rfl

@[simp] theorem memRead_beginStep (s : State) (a : Nat) : memRead (beginStep s) a = memRead s a := rfl

@[simp] theorem fetch_beginStep (s : State) : fetch (beginStep s) = fetch s := rfl

/-- A fetch looks at PC, MEM and the parameters alone. -/
theorem fetch_congr {s t : State} (hp : t.pc = s.pc) (hm : t.mem = s.mem) (hc : t.cfg = s.cfg) :
    fetch t = fetch s := by
  simp only [fetch, memRead, readByte, hp, hm, hc]

/-- Everything a fetch that fails can be (rule R91). -/
theorem fetch_error {s : State} {c : Cause} (h : fetch s = .error c) :
    c = .addressOutOfRange ∧ s.cfg.oobPolicy = .fault ∧ 0xFFE < s.pc.toNat := by
  unfold fetch at h
  split at h
  · next hc =>
    injection h with h
    subst h
    obtain ⟨h1, h2, h3⟩ := memRead_error hc
    exact ⟨h1, h3, by omega⟩
  · split at h
    · next hc =>
      injection h with h
      subst h
      obtain ⟨h1, h2, h3⟩ := memRead_error hc
      exact ⟨h1, h3, by omega⟩
    · exact absurd h (by simp)

/-- The three things a step that answers a next state can have done: faulted in the fetch, met an illegal word, or
executed an instruction and, unless it faulted, ticked the timers. -/
theorem step_cases {s t : State} (h : step s = .next t) :
    s.halt = false ∧
    ((∃ c, fetch s = .error c ∧ t = enterFault c s.pc (Config.fetchFaultFop s.freeIx) (beginStep s)) ∨
     (∃ op, fetch s = .ok op ∧ decodeWord? op = none ∧
       t = enterFault .unrecognizedOpcode ((advancePc (beginStep s)).pc - 2#16) op (advancePc (beginStep s))) ∨
     (∃ op i u, fetch s = .ok op ∧ decodeWord? op = some i ∧ exec i (advancePc (beginStep s)) = .next u ∧
       t = if u.halt then u else timerTick u)) := by
  unfold step at h
  split at h
  · exact absurd h (by simp)
  · next hh =>
    refine ⟨by simpa using hh, ?_⟩
    rw [fetch_beginStep] at h
    split at h
    · next c hf =>
      injection h with h
      exact .inl ⟨c, hf, h.symm⟩
    · next op hf =>
      split at h
      · next e he =>
        injection h with h
        exact .inr (.inl ⟨op, hf, (decode_eq_error.1 he).1, h.symm⟩)
      · next i hi =>
        obtain ⟨u, hu⟩ := exec_next i (advancePc (beginStep s))
        rw [hu] at h
        injection h with h
        exact .inr (.inr ⟨op, i, u, hf, decode_eq_ok.1 hi, hu, h.symm⟩)

/-- The address a fault of the decoded word records is the address it was fetched from. -/
theorem advancePc_pc_sub (s : State) : (advancePc (beginStep s)).pc - 2#16 = s.pc := by
  show s.pc + 2#16 - 2#16 = s.pc
  exact BitVec.add_sub_cancel _ _

/-- A timer counts down by 1 and stops at 0 (rule R95). -/
theorem countDown_toNat (b : Byte) : (countDown b).toNat = b.toNat - 1 := by
  unfold countDown
  split
  · next h => subst h; rfl
  · next h =>
    have h0 : b.toNat ≠ 0 := fun e => h (BitVec.eq_of_toNat_eq e)
    have := b.isLt
    rw [BitVec.toNat_sub]
    simp only [BitVec.toNat_ofNat]
    omega

/-- A meaning that ends with HALT set, from a running core, has raised a fault of its own, and only under `fault`
(60_exceptions.md rule R182). -/
theorem exec_halts {i : Instr} {s t : State} (hs : s.halt = false) (h : exec i s = .next t) (ht : t.halt = true) :
    ∃ c, t = enterFault c (s.pc - 2#16) (encode i) s ∧ c ≠ .unrecognizedOpcode ∧ s.cfg.oobPolicy = .fault := by
  cases i with
  | ret ign =>
    simp only [exec, execRet, raise] at h
    split at h
    · next hc => injection h with h; exact ⟨_, h.symm, by simp, hc.2⟩
    · injection h with h; subst h; exact absurd ht (by simp [hs])
  | callNnn nnn =>
    simp only [exec, execCallNnn, raise] at h
    split at h
    · next hc => injection h with h; exact ⟨_, h.symm, by simp, hc.2⟩
    · injection h with h; subst h; exact absurd ht (by simp [hs])
  | ldVxK x =>
    simp only [exec, execLdVxK] at h
    split at h <;> (injection h with h; subst h; exact absurd ht (by simp [hs]))
  | drwVxVyN x y n =>
    obtain h' | ⟨c, h', rfl⟩ := conclude_cases h
    · split at h'
      · next u hu =>
        injection h' with h'; subst h'
        have hh : u.halt = s.halt := (forEach_drawRow_frame hu).1 .halt (by simp)
        exact absurd ht (by simp [hh, hs])
      · exact absurd h' (by simp)
    · split at h'
      · exact absurd h' (by simp)
      · next hc =>
        injection h' with h'
        subst h'
        obtain ⟨h1, h2⟩ := forEach_drawRow_error hc
        exact ⟨_, rfl, by rcases h1 with rfl | rfl <;> simp, h2⟩
  | skpVx x =>
    obtain h' | ⟨c, h', rfl⟩ := conclude_cases h
    · split at h'
      · next d _ => injection h' with h'; subst h'; exact absurd ht (by cases d <;> simp [hs])
      · exact absurd h' (by simp)
    · split at h'
      · exact absurd h' (by simp)
      · next hc =>
        injection h' with h'
        subst h'
        obtain ⟨rfl, -, h2⟩ := keyCell_error hc
        exact ⟨_, rfl, by simp, h2⟩
  | sknpVx x =>
    obtain h' | ⟨c, h', rfl⟩ := conclude_cases h
    · split at h'
      · next d _ => injection h' with h'; subst h'; exact absurd ht (by cases d <;> simp [hs])
      · exact absurd h' (by simp)
    · split at h'
      · exact absurd h' (by simp)
      · next hc =>
        injection h' with h'
        subst h'
        obtain ⟨rfl, -, h2⟩ := keyCell_error hc
        exact ⟨_, rfl, by simp, h2⟩
  | ldBVx x =>
    obtain h' | ⟨c, h', rfl⟩ := conclude_cases h
    · obtain ⟨m, rfl, -⟩ := storeBytes_ok h'; exact absurd ht (by simp [hs])
    · obtain ⟨rfl, h2⟩ := storeBytes_error h'; exact ⟨_, rfl, by simp, h2⟩
  | ldMemIVx x =>
    obtain h' | ⟨c, h', rfl⟩ := conclude_cases h
    · obtain ⟨m, rfl, -⟩ := storeBytes_ok h'; exact absurd ht (by simp [hs])
    · obtain ⟨rfl, h2⟩ := storeBytes_error h'; exact ⟨_, rfl, by simp, h2⟩
  | ldVxMemI x =>
    obtain h' | ⟨c, h', rfl⟩ := conclude_cases h
    · have hh : t.halt = s.halt := forEach_loadReg_frame h' .halt (by simp)
      exact absurd ht (by simp [hh, hs])
    · obtain ⟨rfl, h2⟩ := forEach_loadReg_error h'; exact ⟨_, rfl, by simp, h2⟩
  | seVxNn x nn =>
    injection h with h; subst h
    exact absurd ht (by simp only [skipIf]; split <;> simp [hs])
  | sneVxNn x nn =>
    injection h with h; subst h
    exact absurd ht (by simp only [skipIf]; split <;> simp [hs])
  | seVxVy x y n =>
    injection h with h; subst h
    exact absurd ht (by simp only [skipIf]; split <;> simp [hs])
  | sneVxVy x y n =>
    injection h with h; subst h
    exact absurd ht (by simp only [skipIf]; split <;> simp [hs])
  | addVxVy x y =>
    injection h with h; subst h
    have hh := (resultAndFlag_write s x (readReg s x + readReg s y) (carryOut (readReg s x) (readReg s y))).2.2.2.2
    exact absurd ht (by rw [show _ = s.halt from hh .halt (by simp)]; simp [hs])
  | subVxVy x y =>
    injection h with h; subst h
    have hh := (resultAndFlag_write s x (readReg s x - readReg s y) (borrowOut (readReg s x) (readReg s y))).2.2.2.2
    exact absurd ht (by rw [show _ = s.halt from hh .halt (by simp)]; simp [hs])
  | shrVx x y =>
    injection h with h; subst h
    have hh := (resultAndFlag_write s x (readReg s x >>> 1) (shiftedOutRight (readReg s x))).2.2.2.2
    exact absurd ht (by rw [show _ = s.halt from hh .halt (by simp)]; simp [hs])
  | shlVx x y =>
    injection h with h; subst h
    have hh := (resultAndFlag_write s x (readReg s x <<< 1) (shiftedOutLeft (readReg s x))).2.2.2.2
    exact absurd ht (by rw [show _ = s.halt from hh .halt (by simp)]; simp [hs])
  | rndVxNn x nn => injection h with h; subst h; exact absurd ht (by simp [hs, drawRandom])
  | _ => injection h with h; subst h; exact absurd ht (by simp [hs])

end Sys2Proof.Machine
end

