-- ==== Sys2Proof/Tests/Slice0.lean ====
section
/-! SUPPORT. Tests: the well-formedness smoke, one decoded word per constructor, steps on the spec's own vectors
(95_test_vectors.md; each test names its vector), and a witness for the hypotheses of every statement that has some. -/

namespace Sys2Proof.Tests

open Sys2Proof Sys2Proof.Machine

/-! ### Well-formedness: a canonical term passes, an ill-formed one is refused (30_encoding.md rule R79) -/

theorem test_wf_cls : (Instr.cls 0x0E#8).wf = true ∧ (Instr.cls 0x12#8).wf = false := by decide
theorem test_wf_ret : (Instr.ret 0x0E#8).wf = true ∧ (Instr.ret 0x12#8).wf = false := by decide
theorem test_wf_seVxVy : (Instr.seVxVy 1#4 2#4 0#4).wf = true ∧ (Instr.seVxVy 1#4 2#4 1#4).wf = false := by decide
theorem test_wf_sneVxVy :
    (Instr.sneVxVy 1#4 2#4 0#4).wf = true ∧ (Instr.sneVxVy 1#4 2#4 0xF#4).wf = false := by decide
theorem test_wf_shrVx : (Instr.shrVx 1#4 0#4).wf = true ∧ (Instr.shrVx 1#4 2#4).wf = false := by decide
theorem test_wf_shlVx : (Instr.shlVx 1#4 0#4).wf = true ∧ (Instr.shlVx 1#4 2#4).wf = false := by decide

/-! ### One word per constructor, written out from the patterns of 30_encoding.md rule R75 -/

theorem test_decode_cls : decode 0b0000000011100000#16 = .ok (.cls 0x0E#8) := by decide
theorem test_decode_ret : decode 0b0000000011101110#16 = .ok (.ret 0x0E#8) := by decide
theorem test_decode_jpNnn : decode 0b0001001000110100#16 = .ok (.jpNnn 0x234#12) := by decide
theorem test_decode_callNnn : decode 0b0010001100000000#16 = .ok (.callNnn 0x300#12) := by decide
theorem test_decode_seVxNn : decode 0b0011101001000010#16 = .ok (.seVxNn 0xA#4 0x42#8) := by decide
theorem test_decode_sneVxNn : decode 0b0100101001000010#16 = .ok (.sneVxNn 0xA#4 0x42#8) := by decide
theorem test_decode_seVxVy : decode 0b0101000100100001#16 = .ok (.seVxVy 1#4 2#4 1#4) := by decide
theorem test_decode_ldVxNn : decode 0b0110101001000010#16 = .ok (.ldVxNn 0xA#4 0x42#8) := by decide
theorem test_decode_addVxNn : decode 0b0111101000000001#16 = .ok (.addVxNn 0xA#4 0x01#8) := by decide
theorem test_decode_ldVxVy : decode 0b1000000100100000#16 = .ok (.ldVxVy 1#4 2#4) := by decide
theorem test_decode_orVxVy : decode 0b1000000100100001#16 = .ok (.orVxVy 1#4 2#4) := by decide
theorem test_decode_andVxVy : decode 0b1000000100100010#16 = .ok (.andVxVy 1#4 2#4) := by decide
theorem test_decode_xorVxVy : decode 0b1000000100100011#16 = .ok (.xorVxVy 1#4 2#4) := by decide
theorem test_decode_addVxVy : decode 0b1000000100100100#16 = .ok (.addVxVy 1#4 2#4) := by decide
theorem test_decode_subVxVy : decode 0b1000000100100101#16 = .ok (.subVxVy 1#4 2#4) := by decide
theorem test_decode_shrVx : decode 0b1000000100100110#16 = .ok (.shrVx 1#4 2#4) := by decide
theorem test_decode_shlVx : decode 0b1000000100101110#16 = .ok (.shlVx 1#4 2#4) := by decide
theorem test_decode_sneVxVy : decode 0b1001000100101111#16 = .ok (.sneVxVy 1#4 2#4 0xF#4) := by decide
theorem test_decode_ldINnn : decode 0b1010001011110000#16 = .ok (.ldINnn 0x2F0#12) := by decide
theorem test_decode_jpV0Nnn : decode 0b1011001100000000#16 = .ok (.jpV0Nnn 0x300#12) := by decide
theorem test_decode_rndVxNn : decode 0b1100000100001111#16 = .ok (.rndVxNn 1#4 0x0F#8) := by decide
theorem test_decode_drwVxVyN : decode 0b1101000100100101#16 = .ok (.drwVxVyN 1#4 2#4 5#4) := by decide
theorem test_decode_skpVx : decode 0b1110000110011110#16 = .ok (.skpVx 1#4) := by decide
theorem test_decode_sknpVx : decode 0b1110000110100001#16 = .ok (.sknpVx 1#4) := by decide
theorem test_decode_ldVxDt : decode 0b1111001000000111#16 = .ok (.ldVxDt 2#4) := by decide
theorem test_decode_ldVxK : decode 0b1111001100001010#16 = .ok (.ldVxK 3#4) := by decide
theorem test_decode_ldDtVx : decode 0b1111001000010101#16 = .ok (.ldDtVx 2#4) := by decide
theorem test_decode_ldStVx : decode 0b1111001000011000#16 = .ok (.ldStVx 2#4) := by decide
theorem test_decode_addIVx : decode 0b1111000100011110#16 = .ok (.addIVx 1#4) := by decide
theorem test_decode_ldFVx : decode 0b1111001000101001#16 = .ok (.ldFVx 2#4) := by decide
theorem test_decode_ldBVx : decode 0b1111000000110011#16 = .ok (.ldBVx 0#4) := by decide
theorem test_decode_ldMemIVx : decode 0b1111001001010101#16 = .ok (.ldMemIVx 2#4) := by decide
theorem test_decode_ldVxMemI : decode 0b1111001001100101#16 = .ok (.ldVxMemI 2#4) := by decide

/-- The illegal neighbours of legal words (vectors S8, A40, A41, K8, K33). -/
theorem test_decode_illegal :
    [0x0001, 0x00E1, 0x0FFF, 0x8017, 0x8008, 0x812F, 0xE19F, 0xE1A0, 0xE000, 0xF000, 0xF0FF, 0xF11F, 0xF075, 0xF130,
      0xF00B].all (fun n => decode (BitVec.ofNat 16 n) == .error (.unrecognizedOpcode (BitVec.ofNat 16 n))) = true := by
  decide

/-- The two bytes of a table word, the first at the lower address (rule R70). -/
theorem test_decodeTableWord : decodeTableWord 16 0x3A42 = some (.seVxNn 0xA#4 0x42#8) := by decide

/-! ### Small states -/

/-- Reset, with the word `op` at 0x200. -/
def start (op : Word) : State := State.reset.withFetchWord 16 op.toNat

/-- The same with some general registers set. -/
def withRegs (s : State) (l : List (Nibble × Byte)) : State := l.foldl (fun s p => writeReg s p.1 p.2) s

/-- The same with some bytes of memory set, from `a` upward. -/
def withBytes (s : State) (a : Nat) (bs : List Byte) : State := { s with mem := Memory.setAll s.cfg s.mem a bs }

/-- The same under OOB_POLICY = wrap. -/
def wrapping (s : State) : State := { s with cfg := { s.cfg with oobPolicy := .wrap } }

/-- The same under VF_WRITE_ORDER = result_first. -/
def resultFirst (s : State) : State := { s with cfg := { s.cfg with vfWriteOrder := .resultFirst } }

/-- The framebuffer in which the listed cells are 1. -/
def cells (l : List Nat) : Vector (BitVec 64) 32 :=
  Vector.ofFn fun y => l.foldl (fun b k => if k / 64 = y.val then b ||| BitVec.twoPow 64 (k % 64) else b) 0#64

/-- One observation of the state after a step. -/
def after {α : Type} (s : State) (f : State → α) : Option α :=
  match step s with
  | .next t => some (f t)
  | .fault _ => none
  | .refused _ => none

/-- HALT, FCAUSE, FADDR and FOP. -/
def record (t : State) : Bool × Nat × Nat × Nat := (t.halt, t.fcause.toNat, t.faddr.toNat, t.fop.toNat)

/-! ### Steps -/

/-- Vector G1. -/
theorem test_cls_clears :
    after { (start 0x00E0#16) with fb := cells [195] }
      (fun t => (t.fb, t.dp, t.pc)) =
    some (cells [], true, 0x202#16) := by decide

/-- Vector G2, G3. -/
theorem test_cls_keeps_vf :
    after (withRegs (start 0x0000#16) [(0xF#4, 0x01#8)])
      (fun t => (t.dp, readReg t 0xF#4)) =
    some (true, 0x01#8) := by decide

/-- Vector T10. -/
theorem test_ret_pops :
    after { (start 0x012E#16) with sp := 1, stack := Vector.replicate 16 0x400#16 }
      (fun t => (t.pc, t.sp.val, t.stack[0])) =
    some (0x402#16, 0, 0#16) := by decide

/-- Vector T8. -/
theorem test_ret_underflow :
    after (start 0x00EE#16) (fun t => record t) = some (true, 4, 0x200, 0x00EE) := by decide

/-- Vector T1. -/
theorem test_jp_nnn :
    after (start 0x1234#16) (fun t => t.pc) = some (0x234#16) := by decide

/-- Vector T5. -/
theorem test_call_pushes :
    after { (start 0x2300#16) with sp := 15 }
      (fun t => (t.stack[15], t.sp.val, t.pc)) =
    some (0x200#16, 16, 0x300#16) := by decide

/-- Vector T6. -/
theorem test_call_overflow :
    after { (start 0x2300#16) with sp := 16 } (fun t => record t) = some (true, 3, 0x200, 0x2300) := by decide

/-- Vector T11. -/
theorem test_se_nn :
    after (withRegs (start 0x3A42#16) [(0xA#4, 0x42#8)]) (fun t => t.pc) = some (0x204#16) := by decide

/-- Vector T13. -/
theorem test_sne_nn :
    after (withRegs (start 0x4A42#16) [(0xA#4, 0x42#8)]) (fun t => t.pc) = some (0x202#16) := by decide

/-- Vector T19. -/
theorem test_se_vy :
    after (withRegs (start 0x5121#16) [(0x1#4, 0x07#8), (0x2#4, 0x07#8)])
      (fun t => t.pc) =
    some (0x204#16) := by decide

/-- Vector T17. -/
theorem test_se_vy_not :
    after (withRegs (start 0x5120#16) [(0x1#4, 0x07#8), (0x2#4, 0x08#8)])
      (fun t => t.pc) =
    some (0x202#16) := by decide

/-- Vector A1. -/
theorem test_ld_nn :
    after (start 0x6A42#16) (fun t => (readReg t 0xA#4, t.pc)) = some (0x42#8, 0x202#16) := by decide

/-- Vector A2. -/
theorem test_add_nn_wraps :
    after (withRegs (start 0x7A01#16) [(0xA#4, 0xFF#8), (0xF#4, 0x07#8)])
      (fun t => (readReg t 0xA#4, readReg t 0xF#4)) =
    some (0x00#8, 0x07#8) := by decide

/-- Vector A5. -/
theorem test_ld_vy :
    after (withRegs (start 0x8120#16) [(0x2#4, 0x5A#8)])
      (fun t => (readReg t 1#4, readReg t 2#4)) =
    some (0x5A#8, 0x5A#8) := by decide

/-- Vector A6. -/
theorem test_or :
    after (withRegs (start 0x8121#16) [(0x1#4, 0xF0#8), (0x2#4, 0x0F#8), (0xF#4, 0x09#8)])
      (fun t => (readReg t 1#4, readReg t 0xF#4)) =
    some (0xFF#8, 0x09#8) := by decide

/-- Vector A7. -/
theorem test_and :
    after (withRegs (start 0x8122#16) [(0x1#4, 0xF3#8), (0x2#4, 0x3C#8)])
      (fun t => readReg t 1#4) =
    some (0x30#8) := by decide

/-- Vector A8. -/
theorem test_xor :
    after (withRegs (start 0x8123#16) [(0x1#4, 0xFF#8), (0x2#4, 0x0F#8)])
      (fun t => readReg t 1#4) =
    some (0xF0#8) := by decide

/-- Vector A12. -/
theorem test_add_carry_edge :
    after (withRegs (start 0x8124#16) [(0x1#4, 0xFF#8), (0x2#4, 0x01#8)])
      (fun t => (readReg t 1#4, readReg t 0xF#4)) =
    some (0x00#8, 0x01#8) := by decide

/-- Vector A16. -/
theorem test_add_into_vf :
    after (withRegs (start 0x8F14#16) [(0xF#4, 0x90#8), (0x1#4, 0x80#8)])
      (fun t => readReg t 0xF#4) =
    some (0x10#8) := by decide

/-- Vector A19. -/
theorem test_sub_borrow :
    after (withRegs (start 0x8125#16) [(0x1#4, 0x10#8), (0x2#4, 0x20#8)])
      (fun t => (readReg t 1#4, readReg t 0xF#4)) =
    some (0xF0#8, 0x01#8) := by decide

/-- Vector A26, result_first. -/
theorem test_sub_into_vf :
    after (resultFirst (withRegs (start 0x8F15#16) [(0xF#4, 0x05#8), (0x1#4, 0x02#8)]))
      (fun t => readReg t 0xF#4) =
    some (0x00#8) := by decide

/-- Vector A31. -/
theorem test_shr_ignores_y :
    after (withRegs (start 0x8126#16) [(0x1#4, 0x04#8), (0x2#4, 0xFF#8), (0xF#4, 0x01#8)])
      (fun t => (readReg t 1#4, readReg t 2#4, readReg t 0xF#4)) =
    some (0x02#8, 0xFF#8, 0x00#8) := by decide

/-- Vector A34. -/
theorem test_shl :
    after (withRegs (start 0x810E#16) [(0x1#4, 0x81#8)])
      (fun t => (readReg t 1#4, readReg t 0xF#4)) =
    some (0x02#8, 0x01#8) := by decide

/-- Vector T22. -/
theorem test_sne_vy :
    after (withRegs (start 0x912F#16) [(0x1#4, 0x07#8), (0x2#4, 0x08#8)])
      (fun t => t.pc) =
    some (0x204#16) := by decide

/-- Vector T21. -/
theorem test_sne_vy_not :
    after (withRegs (start 0x9120#16) [(0x1#4, 0x07#8), (0x2#4, 0x07#8)])
      (fun t => t.pc) =
    some (0x202#16) := by decide

/-- Vector M2. -/
theorem test_ld_i :
    after (start 0xAFFF#16) (fun t => t.i) = some (0xFFF#16) := by decide

/-- Vector T24. -/
theorem test_jp_v0 :
    after (withRegs (start 0xBFFF#16) [(0x0#4, 0xFF#8)]) (fun t => t.pc) = some (0x10FE#16) := by decide

/-- Vector G11. -/
theorem test_drw_two_rows :
    after (withBytes { (withRegs (start 0xD122#16) [(0x1#4, 0x0A#8), (0x2#4, 0x05#8)]) with i := 0x300#16 } 0x300 [0x3C#8, 0xC3#8])
      (fun t => (t.fb, readReg t 0xF#4, t.dp)) =
    some (cells [332, 333, 334, 335, 394, 395, 400, 401], 0#8, true) := by decide

/-- Vector K5. -/
theorem test_skp :
    after { (withRegs (start 0xE19E#16) [(0x1#4, 0x0F#8)]) with key := (Vector.replicate 16 false).set 15 true }
      (fun t => t.pc) =
    some (0x204#16) := by decide

/-- Vector K6. -/
theorem test_skp_off_latch :
    after (withRegs (start 0xE19E#16) [(0x1#4, 0x10#8)])
      (fun t => record t) =
    some (true, 6, 0x200, 0xE19E) := by decide

/-- Vector K3. -/
theorem test_sknp :
    after (withRegs (start 0xE1A1#16) [(0x1#4, 0x07#8)]) (fun t => t.pc) = some (0x204#16) := by decide

/-- Vector K7, wrap. -/
theorem test_sknp_wraps :
    after (wrapping { (withRegs (start 0xE1A1#16) [(0x1#4, 0x17#8)]) with key := (Vector.replicate 16 false).set 7 true })
      (fun t => t.pc) =
    some (0x202#16) := by decide

/-- Vector K9. -/
theorem test_ld_dt_is_read_before_tick :
    after { (start 0xF207#16) with dt := 9#8 } (fun t => (readReg t 2#4, t.dt)) = some (9#8, 8#8) := by decide

/-- Vector K30. -/
theorem test_ld_k_waits :
    after { (start 0xF30A#16) with dt := 2#8, st := 1#8 }
      (fun t => (t.pc, t.awaiting, t.dt, t.tone)) =
    some (0x200#16, true, 1#8, true) := by decide

/-- Vector K32. -/
theorem test_ld_k_delivers :
    after { (start 0xFF0A#16) with kc := false, kev := 0xC#4 }
      (fun t => (readReg t 0xF#4, t.kc, t.pc, t.awaiting)) =
    some (0x0C#8, true, 0x202#16, false) := by decide

/-- Vector K12. -/
theorem test_set_dt_then_tick :
    after (withRegs (start 0xF215#16) [(0x2#4, 0x05#8)]) (fun t => t.dt) = some (4#8) := by decide

/-- Vector K16. -/
theorem test_set_st_sounds :
    after (withRegs (start 0xF218#16) [(0x2#4, 0x01#8)]) (fun t => (t.st, t.tone)) = some (0#8, true) := by decide

/-- Vector K19. -/
theorem test_set_st_cancels :
    after { (withRegs (start 0xF218#16) [(0x2#4, 0x00#8)]) with st := 1#8 }
      (fun t => (t.st, t.tone)) =
    some (0#8, false) := by decide

/-- Vector M6. -/
theorem test_add_i_edge :
    after { (withRegs (start 0xF11E#16) [(0x1#4, 0x01#8)]) with i := 0xFFF#16 }
      (fun t => (t.i, readReg t 0xF#4)) =
    some (0x1000#16, 0x01#8) := by decide

/-- Vector M10. -/
theorem test_add_i_vf_operand :
    after { (withRegs (start 0xFF1E#16) [(0xF#4, 0x01#8)]) with i := 0x300#16 }
      (fun t => (t.i, readReg t 0xF#4)) =
    some (0x301#16, 0x00#8) := by decide

/-- Vector M16. -/
theorem test_ld_f :
    after (withRegs (start 0xF229#16) [(0x2#4, 0xFF#8)]) (fun t => t.i) = some (0x4FB#16) := by decide

/-- Vector M17. -/
theorem test_ld_b :
    after { (withRegs (start 0xF033#16) [(0x0#4, 0xEA#8)]) with i := 0x300#16 }
      (fun t => [0x300, 0x301, 0x302].map (readByte t)) =
    some ([2#8, 3#8, 4#8]) := by decide

/-- Vector M20, wrap. -/
theorem test_ld_b_wraps :
    after (wrapping { (withRegs (start 0xF033#16) [(0x0#4, 0xEA#8)]) with i := 0xFFE#16 })
      (fun t => [0xFFE, 0xFFF, 0x000].map (readByte t)) =
    some ([2#8, 3#8, 4#8]) := by decide

/-- Vector M21. -/
theorem test_bulk_store :
    after { (withRegs (start 0xF255#16) [(0x0#4, 0x01#8), (0x1#4, 0x02#8), (0x2#4, 0x03#8), (0x3#4, 0x04#8)]) with i := 0x400#16 }
      (fun t => ([0x400, 0x401, 0x402, 0x403].map (readByte t), t.i)) =
    some ([1#8, 2#8, 3#8, 0#8], 0x400#16) := by decide

/-- Vector M24. -/
theorem test_bulk_store_out :
    after { (start 0xFF55#16) with i := 0xFF1#16 } (fun t => record t) = some (true, 2, 0x200, 0xFF55) := by decide

/-- Vector M25. -/
theorem test_bulk_load :
    after (withBytes { (withRegs (start 0xF265#16) [(0x3#4, 0x77#8)]) with i := 0x300#16 } 0x300 [2#8, 3#8, 4#8, 5#8])
      (fun t => ([0#4, 1#4, 2#4, 3#4].map (readReg t))) =
    some ([2#8, 3#8, 4#8, 0x77#8]) := by decide

/-- Vector M27, wrap. -/
theorem test_bulk_load_wraps :
    after (wrapping (withBytes { (start 0xF165#16) with i := 0xFFF#16 } 0xFFF [0x5A#8]))
      (fun t => ([0#4, 1#4].map (readReg t))) =
    some ([0x5A#8, 0xF0#8]) := by decide


/-- Vector K26: any draw masked by 0 is 0. The draw itself is a free value, so no test expects one. -/
theorem test_rnd_mask_zero : after (start 0xC100#16) (fun t => (t.pc, t.freeIx)) = some (0x202#16, 1) := by decide

/-- Vector T27: the second byte of a fetch is out of range; FOP is unspecified and not looked at. -/
theorem test_fetch_out_of_range :
    after { withBytes State.reset 0xFFF [0x60#8] with pc := 0xFFF#16 } (fun t => (t.halt, t.fcause, t.faddr)) =
      some (true, 2#3, 0xFFF#16) := by decide

/-- Vector T27 under wrap: the second byte comes from address 0, a default glyph byte. -/
theorem test_fetch_wraps :
    after (wrapping { withBytes State.reset 0xFFF [0x60#8] with pc := 0xFFF#16 }) (fun t => (readReg t 0#4, t.pc)) =
      some (0xF0#8, 0x1001#16) := by decide

/-- Vector T28: an odd PC is legal. -/
theorem test_fetch_odd :
    after { withBytes State.reset 0x203 [0x6A#8, 0x42#8] with pc := 0x203#16 } (fun t => (readReg t 0xA#4, t.pc)) =
      some (0x42#8, 0x205#16) := by decide

/-- Vector A40. -/
theorem test_illegal_word : after (start 0x8017#16) record = some (true, 1, 0x200, 0x8017) := by decide

/-- Rule R151's pseudocode on a lit cell: the first draw collides and the second does not, although the sprite has a set
bit (notes/assumptions/17.md). -/
def drawnOnLit : State :=
  withBytes { start 0xD001#16 with fb := cells [0], i := 0x300#16 } 0x300 [0x80#8]

theorem test_drw_on_lit :
    after drawnOnLit (fun t => (t.fb, readReg t 0xF#4)) = some (cells [], 1#8) ∧
    after { drawnOnLit with fb := cells [] } (fun t => (t.fb, readReg t 0xF#4)) = some (cells [0], 0#8) := by
  decide

/-! ### Witnesses: for every statement with hypotheses, a state and operands that meet them together -/

/-- What `after` saw is a next state. -/
theorem next_of_after {α : Type} {s : State} {f : State → α} {a : α} (h : after s f = some a) :
    ∃ t, step s = .next t ∧ f t = a := by
  unfold after at h
  split at h
  · next t ht => exact ⟨t, ht, by simpa using h⟩
  · exact absurd h (by simp)
  · exact absurd h (by simp)

/-- Reset with SP = `n`. -/
def atDepth (op : Word) (n : Fin 17) : State := { start op with sp := n }

/-- Reset with I = `a`. -/
def atIndex (op a : Word) : State := { start op with i := a }

theorem witness_EncodeDecodeRoundTrip : decode 0xD125#16 = .ok (.drwVxVyN 1#4 2#4 5#4) := by decide

theorem witness_OpcodeMapSelectsInstruction :
    (⟨"SHR_Vx", 0xF00F#16, 0x8006#16⟩ : OpcodeRow) ∈ opcodeMap ∧ 0x8F06#16 &&& 0xF00F#16 = 0x8006#16 := by decide

/-- One word for each of the four families of illegal words, at the edge of each selector's range. -/
theorem witness_IllegalWordsAreExactly :
    decode 0x0001#16 = .error (.unrecognizedOpcode 0x0001#16) ∧
    decode 0x800F#16 = .error (.unrecognizedOpcode 0x800F#16) ∧
    decode 0xE0FF#16 = .error (.unrecognizedOpcode 0xE0FF#16) ∧
    decode 0xF066#16 = .error (.unrecognizedOpcode 0xF066#16) := by decide

theorem witness_IgnoredBitsHaveNoEffect :
    (atDepth 0x00EE#16 1).sp.val ≠ 0 ∧ (wrapping (start 0x00EE#16)).cfg.oobPolicy = .wrap := by decide

theorem witness_MemoryAccessesAreBounded :
    Memory.wf State.reset.cfg State.reset.mem = true ∧ (0xFFF ≤ 0xFFF ∧ 0xFFF < 0x1000) ∧
    State.reset.cfg.oobPolicy = .fault ∧ (wrapping State.reset).cfg.oobPolicy = .wrap := by decide

theorem witness_FetchIsBigEndian :
    InRange State.reset.cfg 0xFFE 2 ∧ ¬ InRange State.reset.cfg 0xFFF 2 ∧
    InRange (wrapping State.reset).cfg 0xFFF 2 := by
  unfold InRange
  decide

theorem witness_StoreIsSeenByNextFetch :
    ∃ t u, Memory.wf (start 0#16).cfg (start 0#16).mem = true ∧
      memWrite { start 0#16 with pc := 0xFFE#16 } 0xFFE 0x12#8 = .ok t ∧ memWrite t 0xFFF 0x34#8 = .ok u :=
  ⟨_, _, by decide, rfl, rfl⟩

theorem witness_StepRunsDecodedInstruction :
    (start 0x8124#16).halt = false ∧ fetch (start 0x8124#16) = .ok 0x8124#16 ∧
    decode 0x8124#16 = .ok (.addVxVy 1#4 2#4) := by decide

theorem witness_FetchOutOfRangeFaults :
    State.reset.halt = false ∧ State.reset.cfg.oobPolicy = .fault ∧ 0xFFE < (0xFFF#16).toNat := by decide

theorem witness_UnrecognizedWordFaults :
    (start 0x8017#16).halt = false ∧ fetch (start 0x8017#16) = .ok 0x8017#16 ∧
    ∀ r ∈ opcodeMap, 0x8017#16 &&& r.mask ≠ r.pattern := by decide

theorem witness_HaltedCoreStays :
    { State.reset with halt := true }.halt = true ∧ HostMove.keyDown 7#4 ≠ .reset ∧
    ∃ t, hostMove (.keyDown 7#4) { State.reset with halt := true } = some t := ⟨rfl, by decide, _, rfl⟩

theorem witness_FaultRecordIsComplete :
    (∃ t, step (start 0x00EE#16) = .next t ∧ t.halt = true) ∧
    (wrapping (start 0x8017#16)).cfg.oobPolicy = .wrap ∧
    ∃ t, step (wrapping (start 0x8017#16)) = .next t ∧ t.halt = true :=
  ⟨next_of_after (by decide), by decide, next_of_after (by decide)⟩

/-- An instruction that sets DT, one that sets ST, and one that sets neither. -/
theorem witness_TimersTickOncePerStep :
    (nextInstr (start 0xF215#16) = some (.ldDtVx 2#4) ∧ ∃ t, step (start 0xF215#16) = .next t ∧ t.halt = false) ∧
    (nextInstr (start 0xF218#16) = some (.ldStVx 2#4) ∧ ∃ t, step (start 0xF218#16) = .next t ∧ t.halt = false) ∧
    (nextInstr (start 0x1200#16) = some (.jpNnn 0x200#12) ∧ ∃ t, step (start 0x1200#16) = .next t ∧ t.halt = false) :=
  ⟨⟨by decide, next_of_after (by decide)⟩, ⟨by decide, next_of_after (by decide)⟩,
    ⟨by decide, next_of_after (by decide)⟩⟩

/-- One step of a jump to itself sets neither timer. -/
theorem noneInRun_selfJump (P : Instr → Prop) (hP : ¬ P (.jpNnn 0x200#12)) : NoneInRun P 1 (start 0x1200#16) := by
  intro m hm u hu i hi
  obtain rfl : m = 0 := by omega
  simp only [runSteps, Option.some.injEq] at hu
  subst hu
  rw [show nextInstr (start 0x1200#16) = some (.jpNnn 0x200#12) by decide] at hi
  simp only [Option.some.injEq] at hi
  exact hi ▸ hP

/-- One completed step is a run of one step. -/
theorem runSteps_one {s : State} (h : after s (fun t => t.halt) = some false) :
    ∃ t, runSteps 1 s = some t ∧ t.halt = false := by
  obtain ⟨t, ht, hh⟩ := next_of_after h
  exact ⟨t, by simp only [runSteps, ht], hh⟩

theorem witness_DelayTimerCountsSteps :
    (∃ t, runSteps 1 (start 0x1200#16) = some t ∧ t.halt = false) ∧
    NoneInRun (fun i => ∃ x, i = .ldDtVx x) 1 (start 0x1200#16) :=
  ⟨runSteps_one (by decide), noneInRun_selfJump _ (by simp)⟩

theorem witness_ToneFiresExactlyOnce :
    0 < 1 ∧ (∃ t, runSteps 1 (start 0x1200#16) = some t ∧ t.halt = false) ∧
    NoneInRun (fun i => ∃ x, i = .ldStVx x) 1 (start 0x1200#16) :=
  ⟨by decide, runSteps_one (by decide), noneInRun_selfJump _ (by simp)⟩

/-- The last legal frame, the seventeenth, and the counter under wrap. -/
theorem witness_CallPushesItsAddress :
    (atDepth 0x2300#16 15).sp.val ≤ 15 ∧ (atDepth 0x2300#16 15).cfg.oobPolicy = .fault ∧
    (atDepth 0x2300#16 16).sp.val = 16 ∧ (wrapping (atDepth 0x2300#16 15)).cfg.oobPolicy = .wrap := by decide

theorem witness_ReturnPopsAndClears :
    (atDepth 0x00EE#16 1).sp.val ≠ 0 ∧ (atDepth 0x00EE#16 16).sp.val ≠ 0 ∧
    (wrapping (start 0x00EE#16)).cfg.oobPolicy = .wrap ∧
    ((start 0x00EE#16).sp.val = 0 ∧ (start 0x00EE#16).cfg.oobPolicy = .fault) := by decide

/-- A CALL whose target, 0x300, holds a RET, at the deepest legal depth. -/
def callThenRet : State := withBytes (atDepth 0x2300#16 15) 0x300 [0x00#8, 0xEE#8]

theorem witness_CallThenReturnResumes :
    callThenRet.halt = false ∧ callThenRet.sp.val ≤ 15 ∧ nextInstr callThenRet = some (.callNnn 0x300#12) ∧
    nextInstr (setPc callThenRet (addrOf 0x300#12)) = some (.ret 0x0E#8) := by decide

theorem witness_FlagAndResultAreExact :
    (0xE#4 : Nibble) ≠ 0xF#4 ∧ (∃ t, exec (.addVxVy 0xE#4 2#4) State.reset = .next t) ∧
    (∃ t, exec (.subVxVy 0xE#4 2#4) State.reset = .next t) ∧ (∃ t, exec (.shrVx 0xE#4 2#4) State.reset = .next t) ∧
    ∃ t, exec (.shlVx 0xE#4 2#4) State.reset = .next t :=
  ⟨by decide, ⟨_, rfl⟩, ⟨_, rfl⟩, ⟨_, rfl⟩, _, rfl⟩

/-- Destination VF under each VF_WRITE_ORDER. -/
theorem witness_AddSetsCarry :
    State.reset.cfg.vfWriteOrder = .flagFirst ∧ (resultFirst State.reset).cfg.vfWriteOrder = .resultFirst := by decide

theorem witness_DecimalDigitsAreStored :
    Memory.wf State.reset.cfg State.reset.mem = true ∧ InRange State.reset.cfg 0xFFD 3 ∧
    ¬ InRange State.reset.cfg 0xFFE 3 ∧
    boundAddress State.reset.cfg (indexAddress (atIndex 0xF033#16 0xFFD#16) 2) = .ok 0xFFF ∧
    boundAddress (wrapping State.reset).cfg (indexAddress (atIndex 0xF033#16 0xFFE#16) 2) = .ok 0 := by
  unfold InRange
  decide

theorem witness_BulkStoreWritesRegisters :
    Memory.wf State.reset.cfg State.reset.mem = true ∧ InRange State.reset.cfg 0xFF0 16 ∧
    ¬ InRange State.reset.cfg 0xFF1 16 ∧ InRange (wrapping State.reset).cfg 0xFF1 16 ∧
    boundAddress State.reset.cfg (indexAddress (atIndex 0xFF55#16 0xFF0#16) 15) = .ok 0xFFF := by
  unfold InRange
  decide

theorem witness_BulkLoadReadsRegisters :
    InRange State.reset.cfg 0xFFF 1 ∧ ¬ InRange State.reset.cfg 0xFFF 2 ∧
    boundAddress State.reset.cfg (indexAddress (atIndex 0xF065#16 0xFFF#16) 0) = .ok 0xFFF := by
  unfold InRange
  decide

theorem witness_BulkStoreLoadRoundTrip :
    Memory.wf (atIndex 0xFF55#16 0xFF0#16).cfg (atIndex 0xFF55#16 0xFF0#16).mem = true ∧
    InRange (atIndex 0xFF55#16 0xFF0#16).cfg (atIndex 0xFF55#16 0xFF0#16).i.toNat ((0xF#4).toNat + 1) := by
  unfold InRange
  decide

/-- The bit of column 0 at the last cell of the grid (vector G12). -/
def lastCell : State := withBytes (withRegs (atIndex 0xD121#16 0x300#16) [(1#4, 0x3F#8), (2#4, 0x1F#8)]) 0x300 [0x80#8]

/-- The bit of column 7 past the right edge (vector G14). -/
def pastEdge : State := withBytes (withRegs (atIndex 0xD121#16 0x300#16) [(1#4, 0x3C#8), (2#4, 1#8)]) 0x300 [0x81#8]

/-- A second row past the end of memory (vector G21). -/
def pastMemory : State := withBytes (atIndex 0xD002#16 0xFFF#16) 0xFFF [0x80#8]

theorem drawFits_lastCell : DrawFits lastCell 1#4 2#4 1#4 := by
  refine .inr fun row hr => ?_
  obtain rfl : row = 0 := by simpa using hr
  unfold RowFits SpriteSet
  decide

/-- A draw that fits at the last cell and covers it, and one of each kind that does not fit. -/
theorem witness_DrawXorsSpriteAndReportsCollision :
    (DrawFits lastCell 1#4 2#4 1#4 ∧ Covers lastCell 1#4 2#4 1#4 2047) ∧ DrawFits (wrapping pastEdge) 1#4 2#4 1#4 ∧
    (pastEdge.cfg.oobPolicy = .fault ∧ ¬ RowFits pastEdge 1#4 2#4 0) ∧
    (pastMemory.cfg.oobPolicy = .fault ∧ (∀ r, r < 1 → RowFits pastMemory 0#4 0#4 r) ∧
      ¬ RowFits pastMemory 0#4 0#4 1) := by
  refine ⟨⟨drawFits_lastCell, 0, 0, by decide, by decide, ?_, by decide⟩, .inl rfl, ⟨by decide, ?_⟩, by decide, ?_, ?_⟩
  · unfold SpriteSet; decide
  · unfold RowFits SpriteSet; decide
  · unfold RowFits SpriteSet; decide
  · unfold RowFits SpriteSet; decide

theorem witness_DrawTwiceRestoresFramebuffer :
    (1#4 : Nibble) ≠ 0xF#4 ∧ (2#4 : Nibble) ≠ 0xF#4 ∧ DrawFits lastCell 1#4 2#4 1#4 :=
  ⟨by decide, by decide, drawFits_lastCell⟩

/-- The highest legal key, the first illegal one, and the same under wrap. -/
theorem witness_KeySkipsTestTheLatch :
    (readReg (withRegs State.reset [(1#4, 15#8)]) 1#4).toNat ≤ 15 ∧
    15 < (readReg (withRegs State.reset [(1#4, 16#8)]) 1#4).toNat ∧
    State.reset.cfg.oobPolicy = .fault ∧ (wrapping State.reset).cfg.oobPolicy = .wrap := by decide

theorem witness_WaitForKeyConsumesOneEvent :
    State.reset.kc = true ∧ (keyDown State.reset 7#4).kc = false := by decide

theorem witness_KeyWaitSpinsUntilKeyDown :
    (start 0xF30A#16).halt = false ∧ (start 0xF30A#16).kc = true ∧ nextInstr (start 0xF30A#16) = some (.ldVxK 3#4) := by
  decide

/-- A completed execution of a flag instruction and of one that is not. -/
theorem witness_InstructionsChangeOnlyTheirParts :
    State.reset.halt = false ∧ (∃ t, exec (.addVxVy 1#4 2#4) State.reset = .next t ∧ t.halt = false) ∧
    ∃ t, exec (.ldMemIVx 2#4) (atIndex 0#16 0x300#16) = .next t ∧ t.halt = false :=
  ⟨rfl, ⟨_, rfl, rfl⟩, _, rfl, rfl⟩

theorem witness_OnlySixInstructionsWriteTheFlag :
    (setsFlag (.addIVx 0xF#4) = true ∧ 0xF#4 ∉ destinations (.addIVx 0xF#4) ∧
      ∃ t, exec (.addIVx 0xF#4) State.reset = .next t ∧ t.halt = false) ∧
    (setsFlag (.ldVxMemI 0xE#4) = false ∧ 0xF#4 ∉ destinations (.ldVxMemI 0xE#4) ∧
      ∃ t, exec (.ldVxMemI 0xE#4) State.reset = .next t ∧ t.halt = false) :=
  ⟨⟨rfl, by decide, _, rfl, rfl⟩, rfl, by decide, _, rfl, rfl⟩

theorem witness_DrawPendingIsSetByDisplayOnly :
    nextInstr (start 0xD000#16) = some (.drwVxVyN 0#4 0#4 0#4) ∧
    ∃ t, step (start 0xD000#16) = .next t ∧ t.halt = false := ⟨by decide, next_of_after (by decide)⟩

/-- A step that completes and a step that faults. -/
theorem witness_StepLeavesHostStateAlone :
    (∃ t, step (start 0x8124#16) = .next t) ∧ ∃ t, step (start 0x8017#16) = .next t ∧ t.halt = true :=
  ⟨(next_of_after (f := fun t => t.halt) (a := false) (by decide)).imp fun _ h => h.1, next_of_after (by decide)⟩

/-- The invariant holds of a state with something in memory. -/
theorem inv_start : Invariant (start 0x1200#16) where
  memWf := by decide
  spWrap _ _ := by decide
  causeLegal h := absurd h (by decide)
  causeWrap h := absurd h (by decide)
  toneAtZero h := absurd h (by decide)
  awaitRuns h := absurd h (by decide)

theorem witness_StepKeepsInv : Invariant (start 0x1200#16) ∧ ∃ t, step (start 0x1200#16) = .next t ∧ t.halt = false :=
  ⟨inv_start, next_of_after (by decide)⟩

theorem witness_HostMovesKeepInv : Invariant (start 0x1200#16) ∧ ∃ t, hostMove (.keyDown 7#4) (start 0x1200#16) = some t :=
  ⟨inv_start, _, rfl⟩

theorem witness_EveryRunHasInv :
    ∃ t, runEvents [.host (.load [0xF0#8, 0x0A#8]), .host (.keyDown 7#4)] (State.resetWith defaultConfig) = some t :=
  ⟨_, rfl⟩

theorem witness_HiddenStateIsNeverSeen :
    Frame [.dp, .st, .tone, .awaiting, .loadOpen, .fcause, .faddr, .fop] (start 0x8124#16)
      { start 0x8124#16 with dp := true, st := 9#8 } ∧ ∃ t, step (start 0x8124#16) = .next t ∧ t.halt = false := by
  refine ⟨fun p hp => ?_, next_of_after (by decide)⟩
  cases p <;> simp_all [Part.same, readByte, readReg]

theorem witness_FramebufferSeenOnlyByCollision :
    Frame [.fb] (start 0xD001#16) { start 0xD001#16 with fb := cells [0] } ∧
    ∃ t, step (start 0xD001#16) = .next t ∧ t.halt = false := by
  refine ⟨fun p hp => ?_, next_of_after (by decide)⟩
  cases p <;> simp_all [Part.same, readByte, readReg]

/-- Vector S10: (3, 4) is cell 259 and (63, 31) is cell 2047. -/
theorem test_getPixel :
    getPixel { State.reset with fb := cells [259] } 3 4 = true ∧
    getPixel { State.reset with fb := cells [2047] } 63 31 = true ∧
    getPixel { State.reset with fb := cells [259, 2047] } 4 3 = false := by decide

/-- Rule R195: after a fault (vector A40) Observe shows HALT and the record of rule R33. -/
theorem test_observe :
    after (start 0x8017#16) (fun t => ((observe t).halt, (observe t).record)) =
      some (true, some (1#3, 0x200#16, 0x8017#16)) := by decide

theorem witness_FinishedProgramStays : HasFinished (start 0x1200#16) :=
  ⟨by decide, 0x200#12, by decide, by decide⟩

/-- The longest program that fits, and one byte more. -/
theorem witness_LoadPlacesProgram :
    Memory.wf State.reset.cfg State.reset.mem = true ∧ State.reset.loadOpen = true ∧
    (List.replicate 3584 0x12#8).length ≤ 3584 ∧ 3584 < (List.replicate 3585 0x12#8).length ∧
    (beginStep State.reset).loadOpen = false := by
  exact ⟨by decide, by decide, List.length_replicate.le, List.length_replicate.symm ▸ Nat.lt_succ_self 3584, by decide⟩

/-- Both values of DP and of HALT, and something after a Stop. -/
theorem witness_HostMovesHaveTheirEffects :
    (setDp State.reset).dp = true ∧ State.reset.dp = false ∧ { State.reset with halt := true }.halt = true ∧
    State.reset.halt = false ∧ runEvents [.host .stop, .step] State.reset = none := by decide

end Sys2Proof.Tests
end

section
/-! SUPPORT. What a completed instruction leaves unchanged, as frames over the table `changedParts`. -/

namespace Sys2Proof.Machine

/-! ### Frames of the updates that are not in Laws/Ops.lean -/

theorem frame_drawRandom (s : State) : Frame [.freeIx] s (drawRandom s).2 := by
  intro p hp
  cases p <;> simp_all [Part.same, readByte]

/-- CLS is the one instruction that replaces the framebuffer as a whole (44_display.md rule R150). -/
theorem frame_setFb (s : State) (fb : Vector (BitVec 64) 32) : Frame [.fb] s { s with fb := fb } := by
  intro p hp
  cases p <;> simp_all [Part.same, readReg, readByte]

theorem frame_setMem (s : State) (m : Memory) : Frame [.mem] s { s with mem := m } := by
  intro p hp
  cases p <;> simp_all [Part.same, readReg]

theorem frame_setDt (s : State) (b : Byte) : Frame [.dt] s { s with dt := b } := by
  intro p hp
  cases p <;> simp_all [Part.same, readReg, readByte]

theorem frame_setSt (s : State) (b : Byte) : Frame [.st] s { s with st := b } := by
  intro p hp
  cases p <;> simp_all [Part.same, readReg, readByte]

theorem frame_setKc (s : State) (c : Bool) : Frame [.kc] s { s with kc := c } := by
  intro p hp
  cases p <;> simp_all [Part.same, readReg, readByte]

theorem frame_setAwaiting (s : State) (c : Bool) : Frame [.awaiting] s { s with awaiting := c } := by
  intro p hp
  cases p <;> simp_all [Part.same, readReg, readByte]

theorem frame_writeResultAndFlag (s : State) (x : Nibble) (r : Byte) (f : Bool) :
    Frame [.v] s (writeResultAndFlag s x r f) :=
  (resultAndFlag_write s x r f).2.2.2.2

theorem frame_skipIf (s : State) (c : Bool) : Frame [.pc] s (skipIf s c) := (skipIf_spec s c).2

/-- A change within `ps` and then one within `qs` are a change within any list that holds both. -/
theorem Frame.trans_mono {ps qs rs : List Part} {s t u : State} (h : Frame ps s t) (h' : Frame qs t u)
    (hp : ps ⊆ rs) (hq : qs ⊆ rs) : Frame rs s u :=
  (h.mono hp).trans (h'.mono hq)

/-! ### Completed instructions -/

/-- A meaning that ends by `conclude` and leaves the core running has completed with its result. -/
theorem conclude_completes {i : Instr} {s t : State} {r : Except Cause State} (h : conclude i s r = .next t)
    (ht : t.halt = false) : r = .ok t := by
  obtain hr | ⟨c, -, rfl⟩ := conclude_cases h
  · exact hr
  · simp at ht

/-- A RET that completes pops and goes on after the CALL it returns to (41_control_transfer.md rule R100). -/
theorem execRet_completes {ign : Byte} {s t : State} (h : execRet ign s = .next t) (ht : t.halt = false) :
    t = setPc (pop s).2 ((pop s).1 + 2#16) := by
  simp only [execRet, raise] at h
  split at h
  · cases h
    simp at ht
  · cases h
    rfl

/-- A CALL that completes pushes its own address and jumps (41_control_transfer.md rule R102). -/
theorem execCallNnn_completes {nnn : Addr12} {s t : State} (h : execCallNnn nnn s = .next t)
    (ht : t.halt = false) : t = setPc (push s (s.pc - 2#16)) (addrOf nnn) := by
  simp only [execCallNnn, raise] at h
  split at h
  · cases h
    simp at ht
  · cases h
    rfl

/-- An instruction that completes changes only the parts its row of the spec's tables names (10_state.md rules R22,
R35, 20_memory.md rule R50). -/
theorem exec_frame {i : Instr} {s t : State} (h : exec i s = .next t) (ht : t.halt = false) :
    Frame (changedParts i) s t := by
  cases i with
  | ldVxNn x _ | addVxNn x _ | ldVxVy x _ | orVxVy x _ | andVxVy x _ | xorVxVy x _ | ldVxDt x =>
    cases h
    exact frame_writeReg s x _
  | addVxVy x _ | subVxVy x _ | shrVx x _ | shlVx x _ =>
    cases h
    exact frame_writeResultAndFlag s x _ _
  | seVxNn _ _ | sneVxNn _ _ | seVxVy _ _ _ | sneVxVy _ _ _ =>
    cases h
    exact frame_skipIf s _
  | jpNnn _ | jpV0Nnn _ =>
    cases h
    exact frame_setPc s _
  | ldINnn _ | ldFVx _ =>
    cases h
    exact frame_setI s _
  | ldDtVx _ =>
    cases h
    exact frame_setDt s _
  | ldStVx _ =>
    cases h
    exact frame_setSt s _
  | cls _ =>
    cases h
    exact (frame_setFb s _).trans_mono (frame_setDp _) (by simp [changedParts]) (by simp [changedParts])
  | addIVx _ =>
    cases h
    exact (frame_setI s _).trans_mono (frame_writeReg _ _ _) (by simp [changedParts]) (by simp [changedParts])
  | rndVxNn _ _ =>
    cases h
    exact (frame_drawRandom s).trans_mono (frame_writeReg _ _ _) (by simp [changedParts]) (by simp [changedParts])
  | ret _ =>
    obtain rfl := execRet_completes h ht
    exact (frame_pop s).trans_mono (frame_setPc _ _) (by simp [changedParts]) (by simp [changedParts])
  | callNnn _ =>
    obtain rfl := execCallNnn_completes h ht
    exact (frame_push s _).trans_mono (frame_setPc _ _) (by simp [changedParts]) (by simp [changedParts])
  | ldVxK _ =>
    simp only [exec, execLdVxK] at h
    split at h
    · cases h
      exact (frame_setPc s _).trans_mono (frame_setAwaiting _ _) (by simp [changedParts]) (by simp [changedParts])
    · cases h
      exact (frame_writeReg s _ _).trans_mono (frame_setKc _ _) (by simp [changedParts]) (by simp [changedParts])
  | skpVx _ | sknpVx _ =>
    have hr := conclude_completes h ht
    split at hr
    · cases hr
      exact frame_skipIf s _
    · cases hr
  | drwVxVyN _ _ _ =>
    have hr := conclude_completes h ht
    split at hr
    · next hu =>
      cases hr
      have hdraw := (frame_writeReg s 0xF#4 0#8).trans_mono (forEach_drawRow_frame hu).1 (rs := [.v, .fb])
        (by simp) (by simp)
      exact hdraw.trans_mono (frame_setDp _) (by simp [changedParts]) (by simp [changedParts])
    · cases hr
  | ldBVx _ | ldMemIVx _ =>
    obtain ⟨m, rfl, -⟩ := storeBytes_ok (conclude_completes h ht)
    exact frame_setMem s m
  | ldVxMemI _ => exact forEach_loadReg_frame (conclude_completes h ht)

end Sys2Proof.Machine
end

section
/-! SUPPORT. The invariant holds at RESET and is kept by every step and every host move, so every run has it. -/

namespace Sys2Proof.Machine

/-! ### What a completed instruction keeps of the invariant -/

/-- What the running core's part of the invariant asks of an instruction: the parameters stay, memory keeps its
canonical form, and under `wrap` SP stays a 4-bit counter. -/
structure KeepsCore (s t : State) : Prop where
  cfg : t.cfg = s.cfg
  memWf : Memory.wf s.cfg s.mem = true → Memory.wf s.cfg t.mem = true
  spWrap : s.cfg.oobPolicy = .wrap → s.sp.val ≤ 15 → t.sp.val ≤ 15

/-- A change of other parts than the parameters, memory and SP keeps all three. -/
theorem KeepsCore.of_frame {ps : List Part} {s t : State} (h : Frame ps s t) (hcfg : Part.cfg ∉ ps)
    (hmem : Part.mem ∉ ps) (hsp : Part.sp ∉ ps) : KeepsCore s t where
  cfg := h .cfg hcfg
  memWf hm := by rwa [(h .mem hmem).1]
  spWrap _ hs := by rwa [show t.sp = s.sp from h .sp hsp]

/-- A run of stores keeps the canonical form (20_memory.md rule R53). -/
theorem KeepsCore.of_storeBytes {bs : List Byte} {a : Nat} {s t : State} (h : storeBytes bs a s = .ok t) :
    KeepsCore s t := by
  obtain ⟨m, rfl, hm⟩ := storeBytes_ok h
  exact ⟨rfl, hm, fun _ => id⟩

/-- Under `wrap` a push leaves SP below 16, whatever it was. -/
theorem spAfterPush_wrap_le (sp : Fin 17) : (spAfterPush .wrap sp).val ≤ 15 := by
  simp only [spAfterPush]
  omega

/-- A pop leaves SP below 16, whatever it was. -/
theorem pop_sp_le (s : State) : (pop s).2.sp.val ≤ 15 := by
  simp only [pop, popIndex]
  omega

/-- Every completed instruction keeps the parameters, memory's form and the bound of SP. -/
theorem exec_keepsCore {i : Instr} {s t : State} (h : exec i s = .next t) (ht : t.halt = false) : KeepsCore s t := by
  have hf := exec_frame h ht
  cases i with
  | ret _ =>
    obtain rfl := execRet_completes h ht
    exact ⟨rfl, id, fun _ _ => pop_sp_le s⟩
  | callNnn _ =>
    obtain rfl := execCallNnn_completes h ht
    refine ⟨rfl, id, fun hw _ => ?_⟩
    simpa [hw] using spAfterPush_wrap_le s.sp
  | ldBVx _ | ldMemIVx _ => exact .of_storeBytes (conclude_completes h ht)
  | _ => exact .of_frame hf (by simp [changedParts]) (by simp [changedParts]) (by simp [changedParts])

/-! ### Steps -/

/-- The code of every cause is one of 1 to 6 (60_exceptions.md rule R182). -/
theorem Cause.code_range (c : Cause) : 1 ≤ c.code.toNat ∧ c.code.toNat ≤ 6 := by
  cases c <;> decide

/-- The invariant holds after any fault that its policy allows: under `wrap` only UnrecognizedOpcode exists (rule
R182). Of the state before only the parameters matter, since a fault
replaces everything else that the invariant speaks of. -/
theorem invariant_enterFault {c : Cause} (a op : Word) {s : State}
    (hc : s.cfg.oobPolicy = .wrap → c = .unrecognizedOpcode) : Invariant (enterFault c a op s) where
  memWf := wf_faultedMemory s
  spWrap hh := by simp at hh
  causeLegal _ := c.code_range
  causeWrap _ hw := congrArg Cause.code (hc hw)
  toneAtZero h := by simp at h
  awaitRuns h := by simp at h

/-- The tick that ends a completed step restores the invariant: TONE sounds only where the tick takes ST from 1 to 0
(40_cycle.md rules R95, R96). -/
theorem invariant_timerTick {s : State} (hh : s.halt = false) (hm : Memory.wf s.cfg s.mem = true)
    (hsp : s.cfg.oobPolicy = .wrap → s.sp.val ≤ 15) : Invariant (timerTick s) where
  memWf := hm
  spWrap _ hw := hsp hw
  causeLegal h := by simp [hh] at h
  causeWrap h := by simp [hh] at h
  toneAtZero h := by
    have hst : s.st = 1#8 := by simpa using h
    exact ⟨by rw [timerTick_st, hst]; rfl, hh⟩
  awaitRuns _ := hh

/-- Every step keeps the invariant, whether it completes or faults. -/
theorem Invariant.of_step {s t : State} (hi : Invariant s) (h : step s = .next t) : Invariant t := by
  obtain ⟨hrun, ⟨c, hf, rfl⟩ | ⟨op, -, -, rfl⟩ | ⟨op, i, u, -, -, hu, rfl⟩⟩ := step_cases h
  case inl =>
    obtain ⟨-, hp, -⟩ := fetch_error hf
    exact invariant_enterFault _ _ fun hw => nomatch hp.symm.trans hw
  case inr.inl => exact invariant_enterFault _ _ fun _ => rfl
  case inr.inr =>
    cases huh : u.halt with
    | true =>
      obtain ⟨c, rfl, -, hp⟩ := exec_halts (s := advancePc (beginStep s)) hrun hu huh
      exact invariant_enterFault _ _ fun hw => nomatch hp.symm.trans hw
    | false =>
      obtain ⟨hcfg, hmem, hsp⟩ := exec_keepsCore hu huh
      exact invariant_timerTick huh (by rw [hcfg]; exact hmem hi.memWf)
        fun hw => hsp (hcfg ▸ hw) (hi.spWrap hrun (hcfg ▸ hw))

/-! ### Reset and the host -/

/-- RESET gives the invariant, under every setting of the parameters (10_state.md rule R42). -/
theorem invariant_resetWith (cfg : Config) : Invariant (State.resetWith cfg) where
  memWf := Memory.wf_nil cfg
  spWrap _ _ := Nat.zero_le 15
  causeLegal h := by simp [State.resetWith] at h
  causeWrap h := by simp [State.resetWith] at h
  toneAtZero h := by simp [State.resetWith] at h
  awaitRuns h := by simp [State.resetWith] at h

/-- Every host move keeps the invariant (60_exceptions.md rule R195). -/
theorem Invariant.of_hostMove {m : HostMove} {s t : State} (hi : Invariant s) (h : hostMove m s = some t) :
    Invariant t := by
  cases m with
  | reset =>
    cases h
    exact { invariant_resetWith s.cfg with }
  | load program =>
    simp only [hostMove, Option.ite_none_right_eq_some, Option.some.injEq] at h
    obtain ⟨⟨-, hlen⟩, rfl⟩ := h
    simp only [maxProgramLength] at hlen
    exact { hi with memWf := Memory.wf_setAll s.cfg program s.mem hi.memWf 0x200 (by omega) }
  | keyDown _ | keyUp _ =>
    cases h
    exact { hi with }
  | render =>
    simp only [hostMove, Option.ite_none_right_eq_some, Option.some.injEq] at h
    obtain ⟨-, rfl⟩ := h
    exact { hi with }
  | observe | stop =>
    cases h
    exact hi

/-! ### Runs -/

/-- A run carries along what every step and every host move keeps. -/
theorem runEvents_preserves {P : State → Prop} (hstep : ∀ s t, P s → step s = .next t → P t)
    (hhost : ∀ m s t, P s → hostMove m s = some t → P t) {es : List Event} {s t : State} (hs : P s)
    (h : runEvents es s = some t) : P t := by
  induction es generalizing s with
  | nil =>
    cases h
    exact hs
  | cons e es ih =>
    cases e with
    | step =>
      simp only [runEvents] at h
      split at h
      · next u hu => exact ih (hstep s u hs hu) h
      · cases h
      · cases h
    | host m =>
      simp only [runEvents] at h
      split at h
      · cases h
      · split at h
        · next u hu => exact ih (hhost m s u hs hu) h
        · cases h

/-- Settles O52, by induction on the run: the invariant holds at RESET and every event keeps it. -/
theorem everyRunHasInv : Obligations.EveryRunHasInv := by
  intro cfg es t h
  exact runEvents_preserves (fun _ _ => Invariant.of_step) (fun _ _ _ => Invariant.of_hostMove)
    (invariant_resetWith cfg) h

end Sys2Proof.Machine
end

section
/-! SUPPORT. What memory holds at reset under the defaults. -/

namespace Sys2Proof.Machine

/-- After RESET memory reads as its reset value, since it lists nothing. -/
@[simp] theorem readByte_resetWith (cfg : Config) (a : Nat) : readByte (State.resetWith cfg) a = resetByte cfg a := rfl

/-- The first 80 bytes are the glyph table, whatever it is (20_memory.md rule R57). -/
theorem map_resetByte_range (cfg : Config) : (List.range 80).map (resetByte cfg) = cfg.glyphTable.toList := by
  apply List.ext_getElem
  · simp
  · intro a h _
    have ha : a < 80 := by simpa using h
    simp [resetByte, ha]

/-- Settles O57: the glyphs are read back as the default table, which lists the font digit by digit. -/
theorem defaultParametersAndGlyphs : Obligations.DefaultParametersAndGlyphs := by
  refine ⟨rfl, rfl, rfl, ?_⟩
  have hread : readByte State.reset = resetByte defaultConfig := funext (readByte_resetWith defaultConfig)
  rw [hread, map_resetByte_range]
  rfl

end Sys2Proof.Machine
end

section
/-! SUPPORT. Two states side by side: how a frame between them is carried through every named operation, so that two
steps from states that differ only in parts no instruction reads stay in lockstep (10_state.md rule R44). -/

namespace Sys2Proof.Machine

/-! ### A frame between two states is carried by equal updates -/

theorem Part.same_symm {s t : State} {p : Part} (h : p.same s t) : p.same t s := by
  cases p <;> simp_all [Part.same]

theorem Frame.symm {ps : List Part} {s t : State} (h : Frame ps s t) : Frame ps t s :=
  fun p hp => Part.same_symm (h p hp)

/-- Two updates that write the parts `qs` alone keep a frame, if what they write outside it is the same. -/
theorem Frame.congr {ps qs : List Part} {s s' t t' : State} (h : Frame ps s s') (ht : Frame qs s t)
    (ht' : Frame qs s' t') (hq : ∀ p ∈ qs, p ∉ ps → p.same t t') : Frame ps t t' := by
  intro p hp
  by_cases hpq : p ∈ qs
  · exact hq p hpq hp
  · exact Part.same_trans (Part.same_symm (ht p hpq)) (Part.same_trans (h p hp) (ht' p hpq))

/-- The case of one part. -/
theorem Frame.congr_one {ps : List Part} {q : Part} {s s' t t' : State} (h : Frame ps s s') (ht : Frame [q] s t)
    (ht' : Frame [q] s' t') (hq : q ∉ ps → q.same t t') : Frame ps t t' :=
  h.congr ht ht' fun _ hp => List.mem_singleton.1 hp ▸ hq

theorem readReg_writeReg (s : State) (x r : Nibble) (b : Byte) :
    readReg (writeReg s x b) r = if r = x then b else readReg s r := by
  split
  · next h => rw [h, readReg_writeReg_same]
  · next h => exact readReg_writeReg_ne s x r b h

theorem frame_beginStep (s : State) : Frame [.tone, .awaiting, .loadOpen] s (beginStep s) := by
  intro p hp
  cases p <;> simp_all [Part.same]

theorem frame_timerTick (s : State) : Frame [.dt, .st, .tone] s (timerTick s) := by
  intro p hp
  cases p <;> simp_all [Part.same, readByte]

theorem faultedMemory_congr {s s' : State} (hcfg : s'.cfg = s.cfg) (hix : s'.freeIx = s.freeIx) :
    faultedMemory s' = faultedMemory s := by
  unfold faultedMemory
  rw [hcfg, hix]

section
variable {ps : List Part} {s s' : State}

theorem Frame.writeReg (h : Frame ps s s') (x : Nibble) {b b' : Byte} (hb : b' = b) :
    Frame ps (writeReg s x b) (writeReg s' x b') := by
  subst hb
  refine h.congr_one (frame_writeReg s x b') (frame_writeReg s' x b') fun hv r => ?_
  rw [readReg_writeReg, readReg_writeReg, show readReg s' r = readReg s r from h .v hv r]

theorem Frame.setPc (h : Frame ps s s') {w w' : Word} (hw : w' = w) : Frame ps (setPc s w) (setPc s' w') :=
  h.congr_one (frame_setPc s w) (frame_setPc s' w') fun _ => hw

theorem Frame.setI (h : Frame ps s s') {w w' : Word} (hw : w' = w) : Frame ps (setI s w) (setI s' w') :=
  h.congr_one (frame_setI s w) (frame_setI s' w') fun _ => hw

theorem Frame.setDp (h : Frame ps s s') : Frame ps (setDp s) (setDp s') :=
  h.congr_one (frame_setDp s) (frame_setDp s') fun _ => rfl

theorem Frame.setFb (h : Frame ps s s') (fb : Vector (BitVec 64) 32) :
    Frame ps { s with fb := fb } { s' with fb := fb } :=
  h.congr_one (frame_setFb s fb) (frame_setFb s' fb) fun _ => rfl

theorem Frame.setDt (h : Frame ps s s') {b b' : Byte} (hb : b' = b) : Frame ps { s with dt := b } { s' with dt := b' } :=
  h.congr_one (frame_setDt s b) (frame_setDt s' b') fun _ => hb

theorem Frame.setSt (h : Frame ps s s') {b b' : Byte} (hb : b' = b) : Frame ps { s with st := b } { s' with st := b' } :=
  h.congr_one (frame_setSt s b) (frame_setSt s' b') fun _ => hb

theorem Frame.setKc (h : Frame ps s s') (c : Bool) : Frame ps { s with kc := c } { s' with kc := c } :=
  h.congr_one (frame_setKc s c) (frame_setKc s' c) fun _ => rfl

theorem Frame.setAwaiting (h : Frame ps s s') (c : Bool) :
    Frame ps { s with awaiting := c } { s' with awaiting := c } :=
  h.congr_one (frame_setAwaiting s c) (frame_setAwaiting s' c) fun _ => rfl

theorem Frame.setMem (h : Frame ps s s') (hcfg : s'.cfg = s.cfg) (m : Memory) :
    Frame ps { s with mem := m } { s' with mem := m } :=
  h.congr_one (frame_setMem s m) (frame_setMem s' m) fun _ => ⟨rfl, readByte_congr rfl hcfg⟩

theorem Frame.advancePc (h : Frame ps s s') (hpc : s'.pc = s.pc) : Frame ps (advancePc s) (advancePc s') :=
  h.setPc (by rw [hpc])

theorem Frame.skipIf (h : Frame ps s s') (hpc : s'.pc = s.pc) {c c' : Bool} (hc : c' = c) :
    Frame ps (skipIf s c) (skipIf s' c') := by
  subst hc
  cases c' with
  | true => exact h.advancePc hpc
  | false => exact h

theorem Frame.drawRandom (h : Frame ps s s') : Frame ps (drawRandom s).2 (drawRandom s').2 :=
  h.congr_one (frame_drawRandom s) (frame_drawRandom s') fun hix => congrArg (· + 1) (h .freeIx hix)

theorem Frame.push (h : Frame ps s s') (hstack : s'.stack = s.stack) (hsp : s'.sp = s.sp) (hcfg : s'.cfg = s.cfg)
    {w w' : Word} (hw : w' = w) : Frame ps (push s w) (push s' w') := by
  refine h.congr (frame_push s w) (frame_push s' w') fun p hp _ => ?_
  simp only [List.mem_cons, List.not_mem_nil, or_false] at hp
  rcases hp with rfl | rfl <;> simp [Part.same, Machine.push, hstack, hsp, hcfg, hw]

theorem Frame.pop (h : Frame ps s s') (hstack : s'.stack = s.stack) (hsp : s'.sp = s.sp) :
    Frame ps (pop s).2 (pop s').2 := by
  refine h.congr (frame_pop s) (frame_pop s') fun p hp _ => ?_
  simp only [List.mem_cons, List.not_mem_nil, or_false] at hp
  rcases hp with rfl | rfl <;> simp [Part.same, Machine.pop, hstack, hsp]

theorem pop_fst_congr (hstack : s'.stack = s.stack) (hsp : s'.sp = s.sp) : (Machine.pop s').1 = (Machine.pop s).1 := by
  simp [Machine.pop, hstack, hsp]

theorem Frame.writeResultAndFlag (h : Frame ps s s') (hcfg : s'.cfg = s.cfg) (x : Nibble) {r r' : Byte} {f f' : Bool}
    (hr : r' = r) (hf : f' = f) : Frame ps (writeResultAndFlag s x r f) (writeResultAndFlag s' x r' f') := by
  unfold Machine.writeResultAndFlag
  rw [hcfg, hf]
  cases s.cfg.vfWriteOrder with
  | flagFirst => exact (h.writeReg _ rfl).writeReg x hr
  | resultFirst => exact (h.writeReg x hr).writeReg _ rfl

theorem Frame.plot (h : Frame ps s s') (hfb : s'.fb = s.fb) (k : Nat) : Frame ps (plot s k) (plot s' k) := by
  have hflip {u u' : State} (hu : Frame ps u u') (he : u'.fb = u.fb) : Frame ps (flipCell u k) (flipCell u' k) :=
    hu.congr_one (frame_flipCell u k) (frame_flipCell u' k) fun _ => congrArg (flipBit · k) he
  unfold Machine.plot
  rw [show fbCell s' k = fbCell s k by simp only [fbCell, hfb]]
  split
  · exact hflip (h.writeReg _ rfl) hfb
  · exact hflip h hfb

/-- The step begins alike: the outputs and the loader's window are the same on both sides from there on. -/
theorem Frame.beginStep (h : Frame ps s s') : Frame ps (beginStep s) (beginStep s') := by
  refine h.congr (frame_beginStep s) (frame_beginStep s') fun p hp _ => ?_
  simp only [List.mem_cons, List.not_mem_nil, or_false] at hp
  rcases hp with rfl | rfl | rfl <;> rfl

/-- The tick reads DT and ST and writes them and TONE: where ST may differ, TONE may (40_cycle.md rules R95, R96). -/
theorem Frame.timerTick (h : Frame ps s s') (htone : .st ∈ ps → .tone ∈ ps) :
    Frame ps (timerTick s) (timerTick s') := by
  refine h.congr (frame_timerTick s) (frame_timerTick s') fun p hp hps => ?_
  simp only [List.mem_cons, List.not_mem_nil, or_false] at hp
  rcases hp with rfl | rfl | rfl
  · exact congrArg countDown (h .dt hps)
  · exact congrArg countDown (h .st hps)
  · exact congrArg (· == 1#8) (h .st (mt htone hps))

/-- Fault entry at equal counters takes equal free values (notes/assumptions/1.md), and the rest is copied. -/
theorem Frame.enterFault (h : Frame ps s s') (hcfg : s'.cfg = s.cfg) (hix : s'.freeIx = s.freeIx) (c : Cause)
    (a op : Word) : Frame ps (enterFault c a op s) (enterFault c a op s') := by
  refine h.congr (frame_enterFault c a op s) (frame_enterFault c a op s') fun p hp _ => ?_
  cases p with
  | key | kev | cfg | loadOpen => simp at hp
  | mem => exact ⟨faultedMemory_congr hcfg hix, readByte_congr (faultedMemory_congr hcfg hix) hcfg⟩
  | _ => simp [Part.same, Machine.enterFault, readReg, hix]

end

end Sys2Proof.Machine
end

section
/-! SUPPORT. Steps in lockstep: from two states that differ only in parts no instruction reads, a fetch, an instruction
and a step go the same way on both sides. -/

namespace Sys2Proof.Machine

/-! ### Bounded expressions in lockstep -/

/-- Both sides end, in states related by `R`, or both raise the same fault. -/
inductive Agree (R : State → State → Prop) : Except Cause State → Except Cause State → Prop
  | ok {t t' : State} (h : R t t') : Agree R (.ok t) (.ok t')
  | error (c : Cause) : Agree R (.error c) (.error c)

/-- A loop whose iterations agree agrees. -/
theorem forEach_agree {R : State → State → Prop} {f : Nat → State → Except Cause State}
    (hf : ∀ k s s', R s s' → Agree R (f k s) (f k s')) (ks : List Nat) {s s' : State} (h : R s s') :
    Agree R (forEach f ks s) (forEach f ks s') := by
  induction ks generalizing s s' with
  | nil => exact .ok h
  | cons k ks ih =>
    have hk := hf k s s' h
    simp only [forEach]
    generalize f k s = r at hk ⊢
    generalize f k s' = r' at hk ⊢
    cases hk with
    | ok hu => exact ih hu
    | error c => exact .error c

/-- A read looks at MEM and the parameters alone (20_memory.md rule R52). -/
theorem memRead_congr {s s' : State} (hm : s'.mem = s.mem) (hc : s'.cfg = s.cfg) (a : Nat) :
    memRead s' a = memRead s a := by
  simp only [memRead, readByte, hm, hc]

/-! ### Drawing in lockstep -/

/-- A relation that lets two draws go in lockstep: related states have the same sprite, and stay related when the same
pixel is plotted in both. -/
structure DrawsAlike (R : State → State → Prop) : Prop where
  i : ∀ {s s'}, R s s' → s'.i = s.i
  mem : ∀ {s s'}, R s s' → s'.mem = s.mem
  cfg : ∀ {s s'}, R s s' → s'.cfg = s.cfg
  plot : ∀ {s s'} (k : Nat), R s s' → R (plot s k) (plot s' k)

section
variable {R : State → State → Prop} {s s' : State}

theorem DrawsAlike.drawColumn (hR : DrawsAlike R) (h : R s s') (b : Byte) (xs py col : Nat) :
    Agree R (drawColumn b xs py col s) (drawColumn b xs py col s') := by
  unfold Machine.drawColumn
  rw [hR.cfg h]
  split
  · split
    · exact .ok (hR.plot _ h)
    · exact .error _
  · exact .ok h

theorem DrawsAlike.drawRow (hR : DrawsAlike R) (h : R s s') (xs ys row : Nat) :
    Agree R (drawRow xs ys row s) (drawRow xs ys row s') := by
  unfold Machine.drawRow indexAddress
  rw [hR.i h, memRead_congr (hR.mem h) (hR.cfg h)]
  split
  · exact forEach_agree (fun col _ _ hu => hR.drawColumn hu _ xs _ col) _ h
  · exact .error _

/-- The sprite loop of DRW: both sides read the same bytes and meet the same bounds. -/
theorem DrawsAlike.sprite (hR : DrawsAlike R) (h : R s s') (xs ys : Nat) (rows : List Nat) :
    Agree R (forEach (Machine.drawRow xs ys) rows s) (forEach (Machine.drawRow xs ys) rows s') :=
  forEach_agree (fun row _ _ hu => hR.drawRow hu xs ys row) rows h

end

/-! ### The parts no instruction reads -/

/-- The parts that no instruction but DRW reads, and DRW only FB (10_state.md rules R29 to R31, R33, R39, R44). -/
def unreadParts : List Part := [.fb, .dp, .st, .tone, .awaiting, .loadOpen, .fcause, .faddr, .fop]

section
variable {ps : List Part} {s s' : State}

/-- A part that instructions read is the same on both sides. -/
theorem Frame.seen (h : Frame ps s s') (hps : ps ⊆ unreadParts) (p : Part) (hp : p ∉ unreadParts := by decide) :
    p.same s s' := h p fun hm => hp (hps hm)

theorem Frame.drawsAlike (hps : ps ⊆ unreadParts) (hfb : .fb ∉ ps) : DrawsAlike (Frame ps) where
  i h := h.seen hps .i
  mem h := (h.seen hps .mem).1
  cfg h := h.seen hps .cfg
  plot k h := h.plot (h .fb hfb) k

theorem Frame.memWrite (hps : ps ⊆ unreadParts) (h : Frame ps s s') (a : Nat) (b : Byte) :
    Agree (Frame ps) (memWrite s a b) (memWrite s' a b) := by
  have hcfg : s'.cfg = s.cfg := h.seen hps .cfg
  have hset : Memory.set s'.cfg s'.mem = Memory.set s.cfg s.mem := by rw [hcfg, (h.seen hps .mem).1]
  simp only [Machine.memWrite, show boundAddress s'.cfg a = boundAddress s.cfg a by rw [hcfg], hset]
  cases boundAddress s.cfg a with
  | ok a' => exact .ok (h.setMem hcfg _)
  | error c => exact .error c

theorem Frame.storeBytes (hps : ps ⊆ unreadParts) (bs : List Byte) (a : Nat) (h : Frame ps s s') :
    Agree (Frame ps) (storeBytes bs a s) (storeBytes bs a s') := by
  induction bs generalizing a s s' with
  | nil => exact .ok h
  | cons b bs ih =>
    have hw := h.memWrite hps a b
    simp only [Machine.storeBytes]
    generalize Machine.memWrite s a b = r at hw ⊢
    generalize Machine.memWrite s' a b = r' at hw ⊢
    cases hw with
    | ok hu => exact ih _ hu
    | error c => exact .error c

theorem Frame.loadRegs (hps : ps ⊆ unreadParts) (ks : List Nat) (h : Frame ps s s') :
    Agree (Frame ps) (forEach loadReg ks s) (forEach loadReg ks s') := by
  refine forEach_agree (fun k u u' hu => ?_) ks h
  have hi : u'.i = u.i := hu.seen hps .i
  unfold loadReg indexAddress
  rw [hi, memRead_congr (hu.seen hps .mem).1 (hu.seen hps .cfg)]
  cases memRead u (u.i.toNat + k) with
  | ok b => exact .ok (hu.writeReg _ rfl)
  | error c => exact .error c

theorem keyCell_congr (hkey : s'.key = s.key) (hcfg : s'.cfg = s.cfg) (vx : Byte) : keyCell s' vx = keyCell s vx := by
  simp only [keyCell, readKey, hkey, hcfg]

/-- A fault raised inside the rule of an instruction is entered alike. -/
theorem Frame.raise (hps : ps ⊆ unreadParts) (h : Frame ps s s') (c : Cause) (i : Instr) :
    ∃ t', raise c i s' = .next t' ∧ Frame ps (Machine.enterFault c (s.pc - 2#16) (encode i) s) t' := by
  have hpc : s'.pc = s.pc := h.seen hps .pc
  refine ⟨_, rfl, ?_⟩
  rw [hpc]
  exact h.enterFault (h.seen hps .cfg) (h.seen hps .freeIx) _ _ _

/-- Two rules whose bounded expressions agree end alike, or enter the same fault alike. -/
theorem Frame.conclude (hps : ps ⊆ unreadParts) (h : Frame ps s s') {Q : State → State → Prop}
    (hQ : ∀ u u', Frame ps u u' → Q u u') {i : Instr} {r r' : Except Cause State} (hr : Agree Q r r') {t : State}
    (ht : conclude i s r = .next t) : ∃ t', conclude i s' r' = .next t' ∧ Q t t' := by
  cases hr with
  | ok hu =>
    cases ht
    exact ⟨_, rfl, hu⟩
  | error c =>
    cases ht
    obtain ⟨t', ht', hf⟩ := h.raise hps c i
    exact ⟨t', ht', hQ _ _ hf⟩

/-! ### Instructions -/

/-- DRW in lockstep, under a relation between its loop's states that the setting of DP keeps. -/
theorem DrawsAlike.draw (hps : ps ⊆ unreadParts) (h : Frame ps s s') {Q : State → State → Prop} (hR : DrawsAlike Q)
    (hQ : ∀ u u', Frame ps u u' → Q u u') (hdp : ∀ u u', Q u u' → Q (setDp u) (setDp u')) {x y n : Nibble} {t : State}
    (ht : exec (.drwVxVyN x y n) s = .next t) : ∃ t', exec (.drwVxVyN x y n) s' = .next t' ∧ Q t t' := by
  have hv : ∀ r, readReg s' r = readReg s r := h.seen hps .v
  have hloop := hR.sprite (hQ _ _ (h.writeReg 0xF#4 (b := 0#8) rfl)) (readReg s x).toNat (readReg s y).toNat
    (List.range n.toNat)
  refine h.conclude hps hQ ?_ ht
  rw [hv, hv]
  simp only [writeVf_eq]
  generalize forEach _ _ (Machine.writeReg s _ _) = r at hloop ⊢
  generalize forEach _ _ (Machine.writeReg s' _ _) = r' at hloop ⊢
  cases hloop with
  | ok hu => exact .ok (hdp _ _ hu)
  | error c => exact .error c

/-- No instruction reads an unread part, but DRW the framebuffer: two executions from states that differ only there end
in states that differ at most there. -/
theorem Frame.exec (hps : ps ⊆ unreadParts) {i : Instr} (hfb : (∃ x y n, i = .drwVxVyN x y n) → .fb ∉ ps)
    (h : Frame ps s s') {t : State} (ht : exec i s = .next t) : ∃ t', exec i s' = .next t' ∧ Frame ps t t' := by
  have hv : ∀ r, readReg s' r = readReg s r := h.seen hps .v
  have hi : s'.i = s.i := h.seen hps .i
  have hpc : s'.pc = s.pc := h.seen hps .pc
  have hstack : s'.stack = s.stack := h.seen hps .stack
  have hsp : s'.sp = s.sp := h.seen hps .sp
  have hdt : s'.dt = s.dt := h.seen hps .dt
  have hkc : s'.kc = s.kc := h.seen hps .kc
  have hkev : s'.kev = s.kev := h.seen hps .kev
  have hkey : s'.key = s.key := h.seen hps .key
  have hcfg : s'.cfg = s.cfg := h.seen hps .cfg
  have hix : s'.freeIx = s.freeIx := h.seen hps .freeIx
  cases i with
  | ldVxNn x _ | addVxNn x _ | ldVxVy x _ | orVxVy x _ | andVxVy x _ | xorVxVy x _ | ldVxDt x =>
    cases ht
    exact ⟨_, rfl, h.writeReg x (by simp only [hv, hdt])⟩
  | addVxVy x _ | subVxVy x _ | shrVx x _ | shlVx x _ =>
    cases ht
    exact ⟨_, rfl, h.writeResultAndFlag hcfg x (by simp only [hv]) (by simp only [hv])⟩
  | seVxNn _ _ | sneVxNn _ _ | seVxVy _ _ _ | sneVxVy _ _ _ =>
    cases ht
    exact ⟨_, rfl, h.skipIf hpc (by simp only [hv])⟩
  | jpNnn _ | jpV0Nnn _ =>
    cases ht
    exact ⟨_, rfl, h.setPc (by simp only [hv])⟩
  | ldINnn _ | ldFVx _ =>
    cases ht
    exact ⟨_, rfl, h.setI (by simp only [hv])⟩
  | ldDtVx x =>
    cases ht
    exact ⟨_, rfl, h.setDt (hv x)⟩
  | ldStVx x =>
    cases ht
    exact ⟨_, rfl, h.setSt (hv x)⟩
  | cls _ =>
    cases ht
    exact ⟨_, rfl, (h.setFb _).setDp⟩
  | addIVx _ =>
    cases ht
    exact ⟨_, rfl, (h.setI (by simp only [hi, hv])).writeReg _ (by simp only [hi, hv])⟩
  | rndVxNn x _ =>
    cases ht
    exact ⟨_, rfl, h.drawRandom.writeReg x (by simp only [drawRandom_fst, hix])⟩
  | ret ign =>
    simp only [Machine.exec, execRet, hsp, hcfg] at ht ⊢
    split at ht
    · next hc =>
      cases ht
      rw [if_pos hc]
      exact h.raise hps _ _
    · next hc =>
      cases ht
      rw [if_neg hc, pop_fst_congr hstack hsp]
      exact ⟨_, rfl, (h.pop hstack hsp).setPc rfl⟩
  | callNnn nnn =>
    simp only [Machine.exec, execCallNnn, hsp, hcfg] at ht ⊢
    split at ht
    · next hc =>
      cases ht
      rw [if_pos hc]
      exact h.raise hps _ _
    · next hc =>
      cases ht
      rw [if_neg hc]
      exact ⟨_, rfl, (h.push hstack hsp hcfg (by rw [hpc])).setPc rfl⟩
  | ldVxK x =>
    simp only [Machine.exec, execLdVxK, hkc, hpc, hkev] at ht ⊢
    split at ht
    · next hc =>
      cases ht
      rw [if_pos hc]
      exact ⟨_, rfl, (h.setPc rfl).setAwaiting true⟩
    · next hc =>
      cases ht
      rw [if_neg hc]
      exact ⟨_, rfl, (h.writeReg x rfl).setKc true⟩
  | skpVx _ | sknpVx _ =>
    refine h.conclude hps (fun _ _ => id) ?_ ht
    rw [hv, keyCell_congr hkey hcfg]
    split
    · exact .ok (h.skipIf hpc rfl)
    · exact .error _
  | drwVxVyN x y n =>
    exact (Frame.drawsAlike hps (hfb ⟨x, y, n, rfl⟩)).draw hps h (fun _ _ => id) (fun _ _ => Frame.setDp) ht
  | ldBVx x =>
    refine h.conclude hps (fun _ _ => id) ?_ ht
    simp only [indexAddress, hi, hv]
    exact h.storeBytes hps _ _
  | ldMemIVx x =>
    refine h.conclude hps (fun _ _ => id) ?_ ht
    simp only [indexAddress, regsUpTo, hi, hv]
    exact h.storeBytes hps _ _
  | ldVxMemI x => exact h.conclude hps (fun _ _ => id) (h.loadRegs hps _) ht

end

/-! ### Steps -/

section
variable {s : State}

theorem nextInstr_eq_some {i : Instr} : nextInstr s = some i ↔ ∃ op, fetch s = .ok op ∧ decodeWord? op = some i := by
  unfold nextInstr
  cases fetch s <;> simp

theorem step_of_fetch_error {c : Cause} (hh : s.halt = false) (hf : fetch s = .error c) :
    step s = .next (enterFault c s.pc (Config.fetchFaultFop s.freeIx) (beginStep s)) := by
  simp [step, hh, hf, fetchFault]

theorem step_of_illegal {op : Word} (hh : s.halt = false) (hf : fetch s = .ok op) (hd : decodeWord? op = none) :
    step s =
      .next (enterFault .unrecognizedOpcode ((advancePc (beginStep s)).pc - 2#16) op (advancePc (beginStep s))) := by
  simp [step, hh, hf, decode_eq_error.2 ⟨hd, rfl⟩, illegalFault]

theorem step_of_exec {i : Instr} {u : State} (hh : s.halt = false) (hi : nextInstr s = some i)
    (hu : exec i (advancePc (beginStep s)) = .next u) : step s = .next (if u.halt then u else timerTick u) := by
  obtain ⟨op, hf, hd⟩ := nextInstr_eq_some.1 hi
  simp only [step, hh, fetch_beginStep, hf, decode_eq_ok.2 hd, hu]
  rfl

end

/-- What a relation between the ends of two instructions needs for the ends of their steps. -/
structure StepsAlike (ps : List Part) (Q : State → State → Prop) : Prop where
  of_frame : ∀ {u u'}, Frame ps u u' → Q u u'
  halt : ∀ {u u'}, Q u u' → u'.halt = u.halt
  timerTick : ∀ {u u'}, Q u u' → Q (timerTick u) (timerTick u')

theorem Frame.stepsAlike {ps : List Part} (hps : ps ⊆ unreadParts) (htone : .st ∈ ps → .tone ∈ ps) :
    StepsAlike ps (Frame ps) where
  of_frame := id
  halt h := h.seen hps .halt
  timerTick h := h.timerTick htone

/-- Two steps from states that differ in unread parts fetch the same word or fault alike, so they end as their
instruction does. -/
theorem StepsAlike.step {ps : List Part} (hps : ps ⊆ unreadParts) {Q : State → State → Prop} (hQ : StepsAlike ps Q)
    {s s' t : State} (h : Frame ps s s')
    (hexec : ∀ i, nextInstr s = some i → ∀ v v' u, Frame ps v v' → exec i v = .next u →
      ∃ u', exec i v' = .next u' ∧ Q u u')
    (ht : step s = .next t) : ∃ t', step s' = .next t' ∧ Q t t' := by
  have hpc : s'.pc = s.pc := h.seen hps .pc
  have hcfg : s'.cfg = s.cfg := h.seen hps .cfg
  have hix : s'.freeIx = s.freeIx := h.seen hps .freeIx
  have hhalt : s'.halt = s.halt := h.seen hps .halt
  have hfetch : fetch s' = fetch s := fetch_congr hpc (h.seen hps .mem).1 hcfg
  have hstart : Frame ps (advancePc (beginStep s)) (advancePc (beginStep s')) := h.beginStep.advancePc hpc
  obtain ⟨hrun, ⟨c, hf, rfl⟩ | ⟨op, hf, hd, rfl⟩ | ⟨op, i, u, hf, hd, hu, rfl⟩⟩ := step_cases ht
  case inl =>
    refine ⟨_, step_of_fetch_error (hhalt.trans hrun) (hfetch.trans hf), hQ.of_frame ?_⟩
    rw [hpc, hix]
    exact h.beginStep.enterFault hcfg hix _ _ _
  case inr.inl =>
    refine ⟨_, step_of_illegal (hhalt.trans hrun) (hfetch.trans hf) hd, hQ.of_frame ?_⟩
    rw [advancePc_pc_sub, advancePc_pc_sub, hpc]
    exact hstart.enterFault hcfg hix _ _ _
  case inr.inr =>
    obtain ⟨u', hu', hq⟩ := hexec i (nextInstr_eq_some.2 ⟨op, hf, hd⟩) _ _ u hstart hu
    refine ⟨_, step_of_exec (hhalt.trans hrun) (nextInstr_eq_some.2 ⟨op, hfetch.trans hf, hd⟩) hu', ?_⟩
    rw [hQ.halt hq]
    cases u.halt with
    | true => exact hq
    | false => exact hQ.timerTick hq

/-- Settles O53: none of the parts that may differ is read, and TONE may differ with ST. -/
theorem hiddenStateIsNeverSeen : Obligations.HiddenStateIsNeverSeen := by
  intro s s' t h ht
  have hps : [.dp, .st, .tone, .awaiting, .loadOpen, .fcause, .faddr, .fop] ⊆ unreadParts := by decide
  exact (Frame.stepsAlike hps fun _ => by decide).step hps h
    (fun i _ _ _ _ hv hu => hv.exec hps (fun _ => by decide) hu) ht

/-! ### The framebuffer -/

theorem DrawFrame.symm {s t : State} (h : DrawFrame s t) : DrawFrame t s :=
  ⟨h.1.symm, fun r hr => (h.2 r hr).symm⟩

/-- A change of the framebuffer and VF on either side keeps two states alike but for these. -/
theorem DrawFrame.congr {s s' t t' : State} (h : DrawFrame s s') (ht : DrawFrame s t) (ht' : DrawFrame s' t') :
    DrawFrame t t' := ht.symm.trans _ _ _ (h.trans _ _ _ ht')

theorem DrawFrame.of_frame {s t : State} (h : Frame [.fb] s t) : DrawFrame s t :=
  ⟨h.mono (by simp), fun r _ => h .v (by simp) r⟩

theorem DrawFrame.drawsAlike : DrawsAlike DrawFrame where
  i h := h.1 .i (by simp)
  mem h := (h.1 .mem (by simp)).1
  cfg h := h.1 .cfg (by simp)
  plot k h := h.congr ⟨frame_plot _ k, regsExcept_plot _ k⟩ ⟨frame_plot _ k, regsExcept_plot _ k⟩

theorem DrawFrame.stepsAlike : StepsAlike [.fb] DrawFrame where
  of_frame := .of_frame
  halt h := h.1 .halt (by simp)
  timerTick h := ⟨h.1.timerTick (by simp), h.2⟩

/-- Settles O54: DRW reads the framebuffer only to set VF, and no other instruction reads it. -/
theorem framebufferSeenOnlyByCollision : Obligations.FramebufferSeenOnlyByCollision := by
  intro s s' t h ht
  have hps : [.fb] ⊆ unreadParts := by decide
  by_cases hdrw : ∃ x y n, nextInstr s = some (.drwVxVyN x y n)
  · obtain ⟨x, y, n, hn⟩ := hdrw
    obtain ⟨t', ht', hf, hr⟩ := DrawFrame.stepsAlike.step hps h (fun i hi _ _ _ hv hu => by
      obtain rfl := Option.some.inj (hn.symm.trans hi)
      exact DrawFrame.drawsAlike.draw hps hv (fun _ _ => .of_frame) (fun _ _ hd => ⟨hd.1.setDp, hd.2⟩) hu) ht
    exact ⟨t', ht', hf, hr, fun hno => absurd hn (hno x y n)⟩
  · obtain ⟨t', ht', hf⟩ := (Frame.stepsAlike hps (by decide)).step hps h (fun i hi _ _ _ hv hu =>
      hv.exec hps (fun ⟨x, y, n, hd⟩ => absurd ⟨x, y, n, hd ▸ hi⟩ hdrw) hu) ht
    obtain ⟨hfv, hr⟩ := DrawFrame.of_frame hf
    exact ⟨t', ht', hfv, hr, fun _ => hf⟩

end Sys2Proof.Machine
end

section
/-! SUPPORT. Of a completed instruction: which general registers it writes, what it leaves in VF, and what its step
does to DP and to the host's state (10_state.md rules R22, R31, R36, R40, R41). -/

namespace Sys2Proof.Machine

/-! ### General registers -/

theorem RegsExcept.mono {xs ys : List Nibble} {s t : State} (h : RegsExcept xs s t) (hs : xs ⊆ ys) :
    RegsExcept ys s t := fun r hr => h r fun hx => hr (hs hx)

theorem Frame.regs {ps : List Part} {s t : State} (h : Frame ps s t) (hv : .v ∉ ps) (xs : List Nibble) :
    RegsExcept xs s t := fun r _ => h .v hv r

theorem regsExcept_writeResultAndFlag (s : State) (x : Nibble) (r : Byte) (f : Bool) :
    RegsExcept [x, 0xF#4] s (writeResultAndFlag s x r f) := (resultAndFlag_write s x r f).2.2.2.1

/-- A bulk load writes the registers it counts over (43_index_memory.md rule R145). -/
theorem forEach_loadReg_regsExcept {ks : List Nat} {s t : State} (h : forEach loadReg ks s = .ok t) :
    RegsExcept (ks.map (BitVec.ofNat 4)) s t := by
  induction ks generalizing s with
  | nil =>
    cases h
    exact fun _ _ => rfl
  | cons k ks ih =>
    simp only [forEach] at h
    split at h
    · next u hu =>
      have hk : RegsExcept [BitVec.ofNat 4 k] s u := loadReg_ok hu ▸ regsExcept_writeReg s _ _
      exact (hk.mono (by simp)).trans ((ih h).mono (by simp))
    · cases h

/-- A DRW that completes has cleared VF, drawn its rows and set DP (44_display.md rule R151). -/
theorem execDrw_completes {x y n : Nibble} {s t : State} (h : exec (.drwVxVyN x y n) s = .next t)
    (ht : t.halt = false) :
    ∃ u, forEach (drawRow (readReg s x).toNat (readReg s y).toNat) (List.range n.toNat) (writeReg s 0xF#4 0#8) = .ok u ∧
      t = setDp u := by
  have hr := conclude_completes h ht
  split at hr
  · next u hu =>
    cases hr
    exact ⟨u, hu, rfl⟩
  · cases hr

/-- An instruction that completes writes the general registers it names, and VF if it sets the flag (rules R21, R22). -/
theorem exec_regsExcept {i : Instr} {s t : State} (h : exec i s = .next t) (ht : t.halt = false) :
    RegsExcept (destinations i ++ if setsFlag i then [0xF#4] else []) s t := by
  have hf := exec_frame h ht
  cases i with
  | ldVxNn x _ | addVxNn x _ | ldVxVy x _ | orVxVy x _ | andVxVy x _ | xorVxVy x _ | ldVxDt x =>
    cases h
    exact regsExcept_writeReg s x _
  | rndVxNn x _ =>
    cases h
    exact regsExcept_writeReg (drawRandom s).2 x _
  | addVxVy x _ | subVxVy x _ | shrVx x _ | shlVx x _ =>
    cases h
    exact regsExcept_writeResultAndFlag s x _ _
  | addIVx _ =>
    cases h
    exact regsExcept_writeReg (setI s _) 0xF#4 _
  | ldVxK x =>
    simp only [exec, execLdVxK] at h
    split at h
    · cases h
      exact fun _ _ => rfl
    · cases h
      exact regsExcept_writeReg s x _
  | drwVxVyN x y n =>
    obtain ⟨u, hu, rfl⟩ := execDrw_completes h ht
    exact (regsExcept_writeReg s 0xF#4 0#8).trans (forEach_drawRow_frame hu).2
  | ldVxMemI x =>
    simpa [destinations, setsFlag] using forEach_loadReg_regsExcept (conclude_completes h ht)
  | _ => exact hf.regs (by simp [changedParts]) _

/-- Settles O45, from the frame of the changed parts and that of the general registers. -/
theorem instructionsChangeOnlyTheirParts : Obligations.InstructionsChangeOnlyTheirParts :=
  fun _ _ _ _ h ht => ⟨exec_frame h ht, exec_regsExcept h ht⟩

/-! ### VF -/

/-- VF holds a flag. -/
def VfIsFlag (s : State) : Prop := readReg s 0xF#4 = 0#8 ∨ readReg s 0xF#4 = 1#8

theorem flagByte_eq (f : Bool) : flagByte f = 0#8 ∨ flagByte f = 1#8 := by
  cases f
  · exact .inl rfl
  · exact .inr rfl

/-- A result written to another register leaves the flag in VF (42_load_alu.md rule R121). -/
theorem vfIsFlag_writeResultAndFlag (s : State) {x : Nibble} (hx : x ≠ 0xF#4) (r : Byte) (f : Bool) :
    VfIsFlag (writeResultAndFlag s x r f) := by
  unfold VfIsFlag
  rw [((resultAndFlag_write s x r f).1 hx).2]
  exact flagByte_eq f

theorem VfIsFlag.plot {s : State} (h : VfIsFlag s) (k : Nat) : VfIsFlag (plot s k) := by
  unfold VfIsFlag Machine.plot
  rw [readReg_flipCell]
  split
  · exact .inr (readReg_writeReg_same s 0xF#4 1#8)
  · exact h

theorem drawColumn_vfIsFlag {b : Byte} {xs py col : Nat} {s t : State} (h : drawColumn b xs py col s = .ok t)
    (hs : VfIsFlag s) : VfIsFlag t := by
  unfold drawColumn at h
  split at h
  · split at h
    · cases h
      exact hs.plot _
    · cases h
  · cases h
    exact hs

/-- What every iteration keeps of a state, the loop keeps. -/
theorem forEach_keeps {P : State → Prop} {f : Nat → State → Except Cause State}
    (hf : ∀ k s t, f k s = .ok t → P s → P t) {ks : List Nat} {s t : State} (h : forEach f ks s = .ok t) (hs : P s) :
    P t :=
  forEach_preserves (P := fun s t => P s → P t) (fun _ => id) (fun _ _ _ h h' => h' ∘ h) hf h hs

theorem drawRow_vfIsFlag {xs ys row : Nat} {s t : State} (h : drawRow xs ys row s = .ok t) (hs : VfIsFlag s) :
    VfIsFlag t := by
  unfold drawRow at h
  split at h
  · exact forEach_keeps (fun _ _ _ => drawColumn_vfIsFlag) h hs
  · cases h

/-- The six flag instructions leave a flag in VF, unless their result goes there (10_state.md rule R22). -/
theorem exec_vfIsFlag {i : Instr} {s t : State} (h : exec i s = .next t) (ht : t.halt = false)
    (hi : setsFlag i = true) (hd : 0xF#4 ∉ destinations i) : VfIsFlag t := by
  cases i with
  | addVxVy x _ | subVxVy x _ | shrVx x _ | shlVx x _ =>
    cases h
    exact vfIsFlag_writeResultAndFlag s (fun hx => hd (by simp [destinations, hx])) _ _
  | addIVx _ =>
    cases h
    unfold VfIsFlag
    rw [writeVf_eq, readReg_writeReg_same]
    exact flagByte_eq _
  | drwVxVyN x y n =>
    obtain ⟨u, hu, rfl⟩ := execDrw_completes h ht
    have hflag : VfIsFlag u :=
      forEach_keeps (fun _ _ _ => drawRow_vfIsFlag) hu (.inl (readReg_writeReg_same s 0xF#4 0#8))
    exact hflag
  | _ => cases hi

/-- Settles O46: the flag instructions leave a flag, and the others leave every register they do not name. -/
theorem onlySixInstructionsWriteTheFlag : Obligations.OnlySixInstructionsWriteTheFlag :=
  fun _ _ _ _ h ht =>
    ⟨exec_vfIsFlag h ht, fun hi hd => exec_regsExcept h ht 0xF#4 (by simpa [hi] using hd)⟩

/-! ### DP -/

/-- A step that ends running has executed an instruction to its end and ticked (40_cycle.md rule R90). -/
theorem step_completes {s t : State} (h : step s = .next t) (ht : t.halt = false) :
    ∃ i u, nextInstr s = some i ∧ exec i (advancePc (beginStep s)) = .next u ∧ u.halt = false ∧ t = timerTick u := by
  obtain ⟨-, ⟨c, -, rfl⟩ | ⟨op, -, -, rfl⟩ | ⟨op, i, u, hf, hd, hu, rfl⟩⟩ := step_cases h
  case inl => simp at ht
  case inr.inl => simp at ht
  case inr.inr =>
    cases huh : u.halt with
    | true => simp [huh] at ht
    | false => exact ⟨i, u, nextInstr_eq_some.2 ⟨op, hf, hd⟩, hu, huh, by simp⟩

/-- DP after a completed instruction (10_state.md rule R31). -/
theorem exec_dp {i : Instr} {s t : State} (h : exec i s = .next t) (ht : t.halt = false) :
    t.dp = true ↔ s.dp = true ∨ (∃ b, i = .cls b) ∨ ∃ x y n, i = .drwVxVyN x y n := by
  have hf := exec_frame h ht
  cases i with
  | cls _ =>
    cases h
    simp
  | drwVxVyN x y n =>
    obtain ⟨u, -, rfl⟩ := execDrw_completes h ht
    simp
  | _ => simp [show t.dp = s.dp from hf .dp (by simp [changedParts])]

/-- Settles O47: the tick and the start of a step leave DP to the instruction. -/
theorem drawPendingIsSetByDisplayOnly : Obligations.DrawPendingIsSetByDisplayOnly := by
  intro i s t hi h ht
  obtain ⟨j, u, hj, hu, huh, rfl⟩ := step_completes h ht
  obtain rfl := Option.some.inj (hi.symm.trans hj)
  simpa using exec_dp hu huh

/-! ### The host's state -/

/-- What no instruction and no fault writes: the input latch, the parameters, and the loader's window. -/
def hostParts : List Part := [.key, .kev, .cfg, .loadOpen]

theorem not_mem_changedParts {p : Part} (hp : p ∈ hostParts) (i : Instr) : p ∉ changedParts i := by
  simp only [hostParts, List.mem_cons, List.not_mem_nil, or_false] at hp
  rcases hp with rfl | rfl | rfl | rfl <;> cases i <;> simp [changedParts]

theorem enterFault_hostParts (c : Cause) (a op : Word) (s : State) {p : Part} (hp : p ∈ hostParts) :
    p.same s (enterFault c a op s) := by
  refine frame_enterFault c a op s p ?_
  simp only [hostParts, List.mem_cons, List.not_mem_nil, or_false] at hp
  rcases hp with rfl | rfl | rfl | rfl <;> simp

/-- An instruction leaves the host's state alone, whether it completes or faults. -/
theorem exec_hostParts {i : Instr} {s t : State} (hs : s.halt = false) (h : exec i s = .next t) {p : Part}
    (hp : p ∈ hostParts) : p.same s t := by
  cases ht : t.halt with
  | true =>
    obtain ⟨c, rfl, -⟩ := exec_halts hs h ht
    exact enterFault_hostParts c _ _ s hp
  | false => exact exec_frame h ht p (not_mem_changedParts hp i)

/-- A step leaves the host's state as the start of the step has it, with the loader's window closed. -/
theorem step_hostParts {s t : State} (h : step s = .next t) {p : Part} (hp : p ∈ hostParts) :
    p.same (beginStep s) t := by
  have hadv : p.same (beginStep s) (advancePc (beginStep s)) :=
    frame_setPc (beginStep s) _ p fun hpc => by simp [List.mem_singleton.1 hpc, hostParts] at hp
  obtain ⟨hrun, ⟨c, -, rfl⟩ | ⟨op, -, -, rfl⟩ | ⟨op, i, u, -, -, hu, rfl⟩⟩ := step_cases h
  case inl => exact enterFault_hostParts _ _ _ _ hp
  case inr.inl => exact Part.same_trans hadv (enterFault_hostParts _ _ _ _ hp)
  case inr.inr =>
    have hexec := Part.same_trans hadv (exec_hostParts (s := advancePc (beginStep s)) hrun hu hp)
    split
    · exact hexec
    · refine Part.same_trans hexec (frame_timerTick u p fun ht => ?_)
      simp only [List.mem_cons, List.not_mem_nil, or_false] at ht
      rcases ht with rfl | rfl | rfl <;> simp [hostParts] at hp

/-- Settles O48: no part of a step writes the host's state, and its start closes the loader's window. -/
theorem stepLeavesHostStateAlone : Obligations.StepLeavesHostStateAlone :=
  fun _ _ h => ⟨step_hostParts (p := .key) h (by decide), step_hostParts (p := .kev) h (by decide),
    step_hostParts (p := .cfg) h (by decide), step_hostParts (p := .loadOpen) h (by decide)⟩

end Sys2Proof.Machine
end

section
/-! SUPPORT. Reset, and the halted core (10_state.md rule R42; 40_cycle.md rule R97; 60_exceptions.md rule R193). -/

namespace Sys2Proof.Machine

theorem step_of_halted {s : State} (hs : s.halt = true) : step s = .fault .halted := if_pos hs

/-- No host move but RESET writes HALT (60_exceptions.md rules R193, R195). -/
theorem hostMove_halt {m : HostMove} {s t : State} (hm : m ≠ .reset) (h : hostMove m s = some t) :
    t.halt = s.halt := by
  cases m with
  | reset => exact absurd rfl hm
  | load program =>
    simp only [hostMove, Option.ite_none_right_eq_some, Option.some.injEq] at h
    obtain ⟨-, rfl⟩ := h
    rfl
  | render =>
    simp only [hostMove, Option.ite_none_right_eq_some, Option.some.injEq] at h
    obtain ⟨-, rfl⟩ := h
    rfl
  | keyDown _ | keyUp _ | observe | stop =>
    cases h
    rfl

/-- Settles O15: a halted core takes no step, and of the host's moves only RESET writes HALT. -/
theorem haltedCoreStays : Obligations.HaltedCoreStays :=
  fun _ hs => ⟨step_of_halted hs, fun _ _ hm h => (hostMove_halt hm h).trans hs, _, rfl, rfl⟩

/-- Settles O50: the default parameters are one setting among all. -/
theorem resetHasInv : Obligations.ResetHasInv := ⟨invariant_resetWith defaultConfig, invariant_resetWith⟩

theorem readReg_resetWith (cfg : Config) (x : Nibble) : readReg (State.resetWith cfg) x = 0#8 := by
  simp [readReg, State.resetWith]

theorem fbCell_resetWith (cfg : Config) (k : Nat) : fbCell (State.resetWith cfg) k = false := by
  simp [fbCell, State.resetWith]

/-- Below 0x050 a byte is at reset as the glyph table has it (20_memory.md rule R57). -/
theorem resetByte_glyph (cfg : Config) {a : Nat} (h : a < 80) : resetByte cfg a = cfg.glyphTable[a] := dif_pos h

/-- From 0x050 up a byte is at reset MEM_FILL, where that is a value (00_scope.md rule R6). -/
theorem resetByte_fill {cfg : Config} {b : Byte} (hb : cfg.memFill = .byte b) {a : Nat} (h : 80 ≤ a) :
    resetByte cfg a = b := by
  simp [resetByte, hb, show ¬ a < 80 by omega]

/-- Settles O56: each register, cell and byte as RESET writes it. -/
theorem resetValues : Obligations.ResetValues := by
  intro cfg
  have hstack (k : Fin 16) : (State.resetWith cfg).stack.get k = 0#16 := by simp [State.resetWith, Vector.get]
  have hkey (k : Fin 16) : (State.resetWith cfg).key.get k = false := by simp [State.resetWith, Vector.get]
  exact ⟨readReg_resetWith cfg, rfl, rfl, hstack, rfl, rfl, rfl, rfl, rfl, fbCell_resetWith cfg,
    fun _ => resetByte_glyph cfg, fun _ _ hb ha => resetByte_fill hb ha, rfl, hkey, rfl, rfl, rfl⟩

end Sys2Proof.Machine
end

section
/-! SUPPORT. What one store and one fetch do, byte by byte (20_memory.md rules R52 to R55, R63). -/

namespace Sys2Proof.Machine

/-- Settles O49, by what a step can do: fault in the fetch, meet an illegal word, or execute and tick. -/
theorem stepKeepsInv : Obligations.StepKeepsInv := fun _ _ => Invariant.of_step

/-! ### One store -/

section
variable {s t : State} {a : Nat} {b : Byte}

/-- A store reads back at its address, and every other byte reads as before (rule R53). -/
theorem readByte_memWrite (hm : Memory.wf s.cfg s.mem = true) (h : memWrite s a b = .ok t) (a' : Nat) :
    readByte t a' = if a' = a % 4096 then b else readByte s a' := by
  obtain ⟨rfl, -⟩ := memWrite_ok h
  exact Memory.get_set s.cfg s.mem hm _ _ b

/-- A store keeps the canonical form. -/
theorem wf_memWrite (hm : Memory.wf s.cfg s.mem = true) (h : memWrite s a b = .ok t) :
    Memory.wf t.cfg t.mem = true := by
  obtain ⟨rfl, -⟩ := memWrite_ok h
  exact Memory.wf_set s.cfg s.mem hm _ b (by omega)

theorem frame_memWrite (h : memWrite s a b = .ok t) : Frame [.mem] s t := by
  obtain ⟨rfl, -⟩ := memWrite_ok h
  exact frame_setMem s _

theorem memWrite_of_error (h : 0xFFF < a) (hp : s.cfg.oobPolicy = .fault) :
    memWrite s a b = .error .addressOutOfRange := by
  simp [memWrite, boundAddress_of_error h hp]

end

/-- Settles O9: each clause is the bounds rule R54 at its side of 0xFFF, under its policy. -/
theorem memoryAccessesAreBounded : Obligations.MemoryAccessesAreBounded := by
  intro s a b hm
  refine ⟨fun ha => ?inRange, fun _ hp => memRead_of_ok (.inr hp),
    fun ha hp => ⟨memRead_of_error ha hp, memWrite_of_error ha hp⟩, fun hok => ?write⟩
  case inRange => simpa [Nat.mod_eq_of_lt (Nat.lt_succ_of_le ha)] using memRead_of_ok (s := s) (.inl ha)
  case write =>
    have hw := memWrite_of_ok b hok
    exact ⟨_, hw, by simp [readByte_memWrite hm hw], fun a' hne => by simp [readByte_memWrite hm hw, hne],
      frame_memWrite hw⟩

/-! ### The fetch -/

/-- Both bytes of a word are accessible iff its second byte is in range or addresses wrap (rule R54). -/
theorem inRange_two {cfg : Config} {a : Nat} : InRange cfg a 2 ↔ cfg.oobPolicy = .wrap ∨ a + 1 ≤ 0xFFF := by
  simp [InRange]

/-- Where both bytes are accessible a fetch is the word of the bytes at PC and PC + 1 (rule R55). -/
theorem fetch_of_inRange {s : State} (h : InRange s.cfg s.pc.toNat 2) :
    fetch s =
      .ok (wordOfBytes (readByte s (s.pc.toNat % 4096)) (readByte s ((s.pc.toNat + 1) % 4096))) := by
  have hr := inRange_two.1 h
  have hhi := memRead_of_ok (s := s) (a := s.pc.toNat) (hr.symm.imp_left fun hle => by omega)
  have hlo := memRead_of_ok (s := s) (a := s.pc.toNat + 1) hr.symm
  simp [fetch, hhi, hlo]

/-- Where a byte is out of range a fetch fails, whichever of the two it is (rules R54, R91). -/
theorem fetch_of_not_inRange {s : State} (h : ¬ InRange s.cfg s.pc.toNat 2) :
    fetch s = .error .addressOutOfRange := by
  obtain ⟨hp, hpc⟩ := not_or.1 fun hr => h (inRange_two.2 hr)
  have hfault : s.cfg.oobPolicy = .fault := by
    cases hc : s.cfg.oobPolicy with
    | fault => rfl
    | wrap => exact absurd hc hp
  have hlo := memRead_of_error (s := s) (a := s.pc.toNat + 1) (by omega) hfault
  cases hf : fetch s with
  | error c => rw [(fetch_error hf).1]
  | ok op =>
    unfold fetch at hf
    rw [hlo] at hf
    split at hf <;> cases hf

/-- Settles O10: the fetched word in its two cases, and its value from those of its bytes. -/
theorem fetchIsBigEndian : Obligations.FetchIsBigEndian :=
  fun _ => ⟨fun h => ⟨_, fetch_of_inRange h, toNat_append_eq _ _⟩, fetch_of_not_inRange⟩

/-- Settles O11: the first store is not overwritten by the second, and both are read back where the fetch reads. -/
theorem storeIsSeenByNextFetch : Obligations.StoreIsSeenByNextFetch := by
  intro s t u hi lo hm hpc hst htu
  have hupc : u.pc = s.pc := (frame_memWrite htu .pc (by simp)).trans (frame_memWrite hst .pc (by simp))
  have hne : s.pc.toNat % 4096 ≠ (s.pc.toNat + 1) % 4096 := by omega
  have hhi : readByte u (s.pc.toNat % 4096) = hi := by
    rw [readByte_memWrite (wf_memWrite hm hst) htu, if_neg hne, readByte_memWrite hm hst, if_pos rfl]
  have hlo : readByte u ((s.pc.toNat + 1) % 4096) = lo := by
    rw [readByte_memWrite (wf_memWrite hm hst) htu, if_pos rfl]
  rw [fetch_of_inRange (inRange_two.2 (.inr (by rw [hupc]; omega))), hupc, hhi, hlo]
  rfl

end Sys2Proof.Machine
end

section
/-! SUPPORT. The decoder against the encoder and the opcode map, family by family (30_encoding.md sections 2 to 4). -/

namespace Sys2Proof

/-! ### The families (rule R74): four have a selector, in the others the high nibble is the whole opcode -/

/-- The families without a selector. -/
def plainFamilies : List Nibble :=
  [0x1#4, 0x2#4, 0x3#4, 0x4#4, 0x5#4, 0x6#4, 0x7#4, 0x9#4, 0xA#4, 0xB#4, 0xC#4, 0xD#4]

theorem family_cases (h : Nibble) : h = 0x0#4 ∨ h = 0x8#4 ∨ h = 0xE#4 ∨ h = 0xF#4 ∨ h ∈ plainFamilies := by
  revert h
  decide

theorem ne_of_mem_plainFamilies : ∀ h ∈ plainFamilies, h ≠ 0x0#4 ∧ h ≠ 0x8#4 ∧ h ≠ 0xE#4 ∧ h ≠ 0xF#4 := by decide

section

variable {op : Word}

theorem decodeWord?_family0 (hh : fieldH op = 0x0#4) : decodeWord? op = decodeFamily0 op := by
  rw [decodeWord?, hh]
  rfl

theorem decodeWord?_family8 (hh : fieldH op = 0x8#4) : decodeWord? op = decodeFamily8 op := by
  rw [decodeWord?, hh]
  rfl

theorem decodeWord?_familyE (hh : fieldH op = 0xE#4) : decodeWord? op = decodeFamilyE op := by
  rw [decodeWord?, hh]
  rfl

theorem decodeWord?_familyF (hh : fieldH op = 0xF#4) : decodeWord? op = decodeFamilyF op := by
  rw [decodeWord?, hh]
  rfl

end

/-! ### Round trips (rules R72, R75) -/

/-- Settles O3: each family of the decoder reads back the fields its format was put together from. -/
theorem decodeEncodeRoundTrip : Obligations.DecodeEncodeRoundTrip := by
  intro i
  rw [decode_eq_ok]
  cases i with
  | cls | ret => simp [encode, decodeWord?_family0, decodeFamily0]
  | ldVxVy | orVxVy | andVxVy | xorVxVy | addVxVy | subVxVy | shrVx | shlVx =>
    simp [encode, decodeWord?_family8, decodeFamily8]
  | skpVx | sknpVx => simp [encode, decodeWord?_familyE, decodeFamilyE]
  | ldVxDt | ldVxK | ldDtVx | ldStVx | addIVx | ldFVx | ldBVx | ldMemIVx | ldVxMemI =>
    simp [encode, decodeWord?_familyF, decodeFamilyF]
  | jpNnn | callNnn | ldINnn | jpV0Nnn => simp [encode, decodeWord?]
  | seVxNn | sneVxNn | ldVxNn | addVxNn | rndVxNn => simp [encode, decodeWord?]
  | seVxVy | sneVxVy | drwVxVyN => simp [encode, decodeWord?]

section

variable {op : Word} {h n : Nibble} {nn : Byte} {i : Instr}

/-! A word is its format with the family, and the selector, that it is known to have. -/

theorem wordNNN_of_family (hh : fieldH op = h) : wordNNN h (fieldNnn op) = op := hh ▸ wordNNN_fields op

theorem wordXNN_of_family (hh : fieldH op = h) : wordXNN h (fieldX op) (fieldNn op) = op := hh ▸ wordXNN_fields op

theorem wordXYN_of_family (hh : fieldH op = h) : wordXYN h (fieldX op) (fieldY op) (fieldN op) = op :=
  hh ▸ wordXYN_fields op

theorem wordZ_of_selector (hh : fieldH op = 0x0#4) (hn : fieldN op = n) : wordZ (fieldMid op) n = op :=
  hn ▸ wordZ_fields op hh

theorem wordXYN_of_selector (hh : fieldH op = h) (hn : fieldN op = n) : wordXYN h (fieldX op) (fieldY op) n = op :=
  hn ▸ wordXYN_of_family hh

theorem wordXNN_of_selector (hh : fieldH op = h) (hn : fieldNn op = nn) : wordXNN h (fieldX op) nn = op :=
  hn ▸ wordXNN_of_family hh

/-- One branch of a family's dispatch on its selector. -/
theorem encode_of_branch {c : Prop} [Decidable c] {a : Instr} {o : Option Instr} (ha : c → encode a = op)
    (ho : o = some i → encode i = op) : (if c then some a else o) = some i → encode i = op := by
  intro hi
  split at hi
  · next hc => exact Option.some.inj hi ▸ ha hc
  · exact ho hi

theorem encode_of_decodeFamily0 (hh : fieldH op = 0x0#4) : decodeFamily0 op = some i → encode i = op := by
  unfold decodeFamily0
  iterate 2 refine encode_of_branch (wordZ_of_selector hh) ?_
  nofun

theorem encode_of_decodeFamily8 (hh : fieldH op = 0x8#4) : decodeFamily8 op = some i → encode i = op := by
  unfold decodeFamily8
  iterate 8 refine encode_of_branch (wordXYN_of_selector hh) ?_
  nofun

theorem encode_of_decodeFamilyE (hh : fieldH op = 0xE#4) : decodeFamilyE op = some i → encode i = op := by
  unfold decodeFamilyE
  iterate 2 refine encode_of_branch (wordXNN_of_selector hh) ?_
  nofun

theorem encode_of_decodeFamilyF (hh : fieldH op = 0xF#4) : decodeFamilyF op = some i → encode i = op := by
  unfold decodeFamilyF
  iterate 9 refine encode_of_branch (wordXNN_of_selector hh) ?_
  nofun

/-- A family without a selector has no illegal word and ignores no bit. -/
theorem decodeWord?_plainFamily (hh : fieldH op ∈ plainFamilies) : ∃ i, decodeWord? op = some i ∧ encode i = op := by
  simp only [plainFamilies, List.mem_cons, List.not_mem_nil, or_false] at hh
  rcases hh with hh | hh | hh | hh | hh | hh | hh | hh | hh | hh | hh | hh <;>
    exact ⟨_, by rw [decodeWord?, hh]; rfl,
      by simp only [encode, wordNNN_of_family hh, wordXNN_of_family hh, wordXYN_of_family hh]⟩

end

/-- Settles O4: in each family the encoder puts back the fields and the selector that the decoder read. -/
theorem encodeDecodeRoundTrip : Obligations.EncodeDecodeRoundTrip := by
  intro w i hi
  rw [decode_eq_ok] at hi
  rcases family_cases (fieldH w) with hh | hh | hh | hh | hh
  · exact encode_of_decodeFamily0 hh (decodeWord?_family0 hh ▸ hi)
  · exact encode_of_decodeFamily8 hh (decodeWord?_family8 hh ▸ hi)
  · exact encode_of_decodeFamilyE hh (decodeWord?_familyE hh ▸ hi)
  · exact encode_of_decodeFamilyF hh (decodeWord?_familyF hh ▸ hi)
  · obtain ⟨j, hj, hw⟩ := decodeWord?_plainFamily hh
    rwa [Option.some.inj (hi.symm.trans hj)]

/-! ### The opcode map (rule R75) -/

/-- A row fixes the family, and its selector where the family has one. -/
theorem opcodeMap_mask : ∀ r ∈ opcodeMap,
    (r.mask = 0xF000#16 ∧ fieldH r.pattern ∈ plainFamilies) ∨
    (r.mask = 0xF00F#16 ∧ (fieldH r.pattern = 0x0#4 ∨ fieldH r.pattern = 0x8#4)) ∨
    (r.mask = 0xF0FF#16 ∧ (fieldH r.pattern = 0xE#4 ∨ fieldH r.pattern = 0xF#4)) := by
  decide

theorem decodeWord?_pattern : ∀ r ∈ opcodeMap, (decodeWord? r.pattern).map Instr.mnemonic = some r.mnemonic := by
  decide

theorem opcodeMap_mnemonic_inj : ∀ r ∈ opcodeMap, ∀ r' ∈ opcodeMap, r.mnemonic = r'.mnemonic → r = r' :=
  List.inj_on_of_nodup_map (by decide)

section

variable {op p : Word} {i : Instr} {r : OpcodeRow}

/-! What a word is depends on its family alone, or on that and its selector. -/

theorem mnemonic_eq_of_plainFamily (hh : fieldH op = fieldH p) (hp : fieldH p ∈ plainFamilies) :
    (decodeWord? op).map Instr.mnemonic = (decodeWord? p).map Instr.mnemonic := by
  simp only [plainFamilies, List.mem_cons, List.not_mem_nil, or_false] at hp
  rcases hp with hp | hp | hp | hp | hp | hp | hp | hp | hp | hp | hp | hp <;>
    (rw [decodeWord?, decodeWord?, hh, hp]; rfl)

theorem mnemonic_eq_of_fieldN (hh : fieldH op = fieldH p) (hn : fieldN op = fieldN p)
    (hp : fieldH p = 0x0#4 ∨ fieldH p = 0x8#4) :
    (decodeWord? op).map Instr.mnemonic = (decodeWord? p).map Instr.mnemonic := by
  rcases hp with hp | hp
  · rw [decodeWord?_family0 (hh.trans hp), decodeWord?_family0 hp]
    simp only [decodeFamily0, hn, apply_ite (Option.map _), Option.map_some, Instr.mnemonic]
  · rw [decodeWord?_family8 (hh.trans hp), decodeWord?_family8 hp]
    simp only [decodeFamily8, hn, apply_ite (Option.map _), Option.map_some, Instr.mnemonic]

theorem mnemonic_eq_of_fieldNn (hh : fieldH op = fieldH p) (hn : fieldNn op = fieldNn p)
    (hp : fieldH p = 0xE#4 ∨ fieldH p = 0xF#4) :
    (decodeWord? op).map Instr.mnemonic = (decodeWord? p).map Instr.mnemonic := by
  rcases hp with hp | hp
  · rw [decodeWord?_familyE (hh.trans hp), decodeWord?_familyE hp]
    simp only [decodeFamilyE, hn, apply_ite (Option.map _), Option.map_some, Instr.mnemonic]
  · rw [decodeWord?_familyF (hh.trans hp), decodeWord?_familyF hp]
    simp only [decodeFamilyF, hn, apply_ite (Option.map _), Option.map_some, Instr.mnemonic]

/-- A word that fits a row decodes as the row's pattern does. -/
theorem mnemonic_of_fits (hr : r ∈ opcodeMap) (hw : op &&& r.mask = r.pattern) :
    (decodeWord? op).map Instr.mnemonic = some r.mnemonic := by
  rw [← decodeWord?_pattern r hr]
  rcases opcodeMap_mask r hr with ⟨hm, hp⟩ | ⟨hm, hp⟩ | ⟨hm, hp⟩
  · rw [hm, and_F000] at hw
    exact mnemonic_eq_of_plainFamily (by simp [← hw]) hp
  · rw [hm, and_F00F] at hw
    exact mnemonic_eq_of_fieldN (by simp [← hw]) (by simp [← hw]) hp
  · rw [hm, and_F0FF] at hw
    exact mnemonic_eq_of_fieldNn (by simp [← hw]) (by simp [← hw]) hp

open Laws in
/-- The word of every instruction fits the instruction's row. -/
theorem encodeFitsRow : (i : Instr) → EncodeFitsRow.Statement i
  | .cls b => EncodeFitsRow.cls b
  | .ret b => EncodeFitsRow.ret b
  | .jpNnn a => EncodeFitsRow.jpNnn a
  | .callNnn a => EncodeFitsRow.callNnn a
  | .seVxNn x b => EncodeFitsRow.seVxNn x b
  | .sneVxNn x b => EncodeFitsRow.sneVxNn x b
  | .seVxVy x y n => EncodeFitsRow.seVxVy x y n
  | .ldVxNn x b => EncodeFitsRow.ldVxNn x b
  | .addVxNn x b => EncodeFitsRow.addVxNn x b
  | .ldVxVy x y => EncodeFitsRow.ldVxVy x y
  | .orVxVy x y => EncodeFitsRow.orVxVy x y
  | .andVxVy x y => EncodeFitsRow.andVxVy x y
  | .xorVxVy x y => EncodeFitsRow.xorVxVy x y
  | .addVxVy x y => EncodeFitsRow.addVxVy x y
  | .subVxVy x y => EncodeFitsRow.subVxVy x y
  | .shrVx x y => EncodeFitsRow.shrVx x y
  | .shlVx x y => EncodeFitsRow.shlVx x y
  | .sneVxVy x y n => EncodeFitsRow.sneVxVy x y n
  | .ldINnn a => EncodeFitsRow.ldINnn a
  | .jpV0Nnn a => EncodeFitsRow.jpV0Nnn a
  | .rndVxNn x b => EncodeFitsRow.rndVxNn x b
  | .drwVxVyN x y n => EncodeFitsRow.drwVxVyN x y n
  | .skpVx x => EncodeFitsRow.skpVx x
  | .sknpVx x => EncodeFitsRow.sknpVx x
  | .ldVxDt x => EncodeFitsRow.ldVxDt x
  | .ldVxK x => EncodeFitsRow.ldVxK x
  | .ldDtVx x => EncodeFitsRow.ldDtVx x
  | .ldStVx x => EncodeFitsRow.ldStVx x
  | .addIVx x => EncodeFitsRow.addIVx x
  | .ldFVx x => EncodeFitsRow.ldFVx x
  | .ldBVx x => EncodeFitsRow.ldBVx x
  | .ldMemIVx x => EncodeFitsRow.ldMemIVx x
  | .ldVxMemI x => EncodeFitsRow.ldVxMemI x

/-- A legal word fits the row of the instruction it decodes to. -/
theorem fits_of_decode (hr : r ∈ opcodeMap) (hi : decode op = .ok i) (hn : i.mnemonic = r.mnemonic) :
    op &&& r.mask = r.pattern := by
  obtain ⟨r', hr', hn', hw⟩ := encodeFitsRow i
  obtain rfl := opcodeMap_mnemonic_inj r' hr' r hr (hn'.trans hn)
  rwa [encodeDecodeRoundTrip op i hi] at hw

end

/-- Settles O5: a word that fits a row decodes as the row's pattern, a legal word fits its own row, and mnemonics tell
the rows apart. -/
theorem opcodeMapSelectsInstruction : Obligations.OpcodeMapSelectsInstruction := by
  refine ⟨by decide, fun r hr w => ⟨fun hw => ?_, fun ⟨i, hi, hn⟩ => fits_of_decode hr hi hn⟩,
    fun r hr r' hr' w hw hw' => ?_⟩
  · obtain ⟨i, hi, hn⟩ := Option.map_eq_some_iff.1 (mnemonic_of_fits hr hw)
    exact ⟨i, decode_eq_ok.2 hi, hn⟩
  · exact opcodeMap_mnemonic_inj r hr r' hr'
      (Option.some.inj ((mnemonic_of_fits hr hw).symm.trans (mnemonic_of_fits hr' hw')))

/-! ### Illegal words (rule R80) -/

section

variable {op : Word}

theorem decodeFamily0_eq_none : decodeFamily0 op = none ↔ fieldN op ≠ 0x0#4 ∧ fieldN op ≠ 0xE#4 := by
  simp [decodeFamily0, ite_eq_iff]

theorem decodeFamily8_eq_none : decodeFamily8 op = none ↔
    fieldN op ∈ [0x7#4, 0x8#4, 0x9#4, 0xA#4, 0xB#4, 0xC#4, 0xD#4, 0xF#4] := by
  have hcompl : ∀ n : Nibble, n ∈ [0x7#4, 0x8#4, 0x9#4, 0xA#4, 0xB#4, 0xC#4, 0xD#4, 0xF#4] ↔
      n ∉ [0x0#4, 0x1#4, 0x2#4, 0x3#4, 0x4#4, 0x5#4, 0x6#4, 0xE#4] := by decide
  rw [hcompl]
  simp [decodeFamily8, ite_eq_iff]

theorem decodeFamilyE_eq_none : decodeFamilyE op = none ↔ fieldNn op ∉ [0x9E#8, 0xA1#8] := by
  simp [decodeFamilyE, ite_eq_iff]

theorem decodeFamilyF_eq_none : decodeFamilyF op = none ↔
    fieldNn op ∉ [0x07#8, 0x0A#8, 0x15#8, 0x18#8, 0x1E#8, 0x29#8, 0x33#8, 0x55#8, 0x65#8] := by
  simp [decodeFamilyF, ite_eq_iff]

end

/-- Settles O6: a family with a selector rejects the selectors it does not list, and the other families reject no
word. -/
theorem illegalWordsAreExactly : Obligations.IllegalWordsAreExactly := by
  intro w
  rw [decode_eq_error, and_iff_left rfl]
  rcases family_cases (fieldH w) with hh | hh | hh | hh | hh
  · simp [hh, decodeWord?_family0, decodeFamily0_eq_none]
  · simp [hh, decodeWord?_family8, decodeFamily8_eq_none]
  · simp [hh, decodeWord?_familyE, decodeFamilyE_eq_none]
  · simp [hh, decodeWord?_familyF, decodeFamilyF_eq_none]
  · obtain ⟨i, hi, -⟩ := decodeWord?_plainFamily hh
    simp [hi, ne_of_mem_plainFamilies _ hh]

/-! ### Fields and sample words (rules R71, R75) -/

/-- Settles O1: each field by its value, and the two overlaps by the value of a concatenation. -/
theorem fieldsAreShiftsAndMasks : Obligations.FieldsAreShiftsAndMasks := by
  intro op
  have hnn : fieldNn op = fieldY op ++ fieldN op := BitVec.eq_of_toNat_eq (by
    rw [toNat_append_eq, fieldNn_toNat, fieldY_toNat, fieldN_toNat]
    omega)
  have hnnn : fieldNnn op = fieldX op ++ fieldY op ++ fieldN op := BitVec.eq_of_toNat_eq (by
    rw [toNat_append_eq, toNat_append_eq, fieldNnn_toNat, fieldX_toNat, fieldY_toNat, fieldN_toNat]
    omega)
  exact ⟨fieldH_toNat op, fieldX_toNat op, fieldY_toNat op, fieldN_toNat op, fieldNn_toNat op, fieldNnn_toNat op,
    hnn, hnnn⟩

/-- Settles O2: the ten words are decoded. -/
theorem sampleWordsDecode : Obligations.SampleWordsDecode := by
  unfold Obligations.SampleWordsDecode
  decide

/-! ### Ignored bits (rules R79, R81) -/

theorem wordZ_inj {b b' : Byte} {n n' : Nibble} : wordZ b n = wordZ b' n' ↔ b = b' ∧ n = n' :=
  ⟨fun h => ⟨by simpa using congrArg fieldMid h, by simpa using congrArg fieldN h⟩, by rintro ⟨rfl, rfl⟩; rfl⟩

theorem wordXYN_inj {h x y n h' x' y' n' : Nibble} :
    wordXYN h x y n = wordXYN h' x' y' n' ↔ h = h' ∧ x = x' ∧ y = y' ∧ n = n' :=
  ⟨fun e => ⟨by simpa using congrArg fieldH e, by simpa using congrArg fieldX e, by simpa using congrArg fieldY e,
    by simpa using congrArg fieldN e⟩, by rintro ⟨rfl, rfl, rfl, rfl⟩; rfl⟩

/-- Settles O7: two words of one format are equal iff their fields are, and the canonical word differs from the
instruction's own in the ignored field alone. -/
theorem wellFormedIsCanonical : Obligations.WellFormedIsCanonical := by
  have hcls : 0x00E0#16 = wordZ 0x0E#8 0x0#4 := by decide
  have hret : 0x00EE#16 = wordZ 0x0E#8 0xE#4 := by decide
  have hxyn (h x y n : Nibble) : h ++ x ++ y ++ n = wordXYN h x y n := rfl
  simp [Obligations.WellFormedIsCanonical, Instr.wf, encode, hcls, hret, hxyn, wordZ_inj, wordXYN_inj]

open Machine in
/-- RET that does not underflow pops, whatever its ignored bits (41_control_transfer.md rule R100). -/
theorem execRet_of_no_underflow {s : State} (b : Byte) (h : s.sp.val ≠ 0 ∨ s.cfg.oobPolicy = .wrap) :
    execRet b s = .next (setPc (pop s).2 ((pop s).1 + 2#16)) :=
  if_neg fun ⟨hsp, hp⟩ => h.elim (· hsp) fun hw => by simp [hw] at hp

/-- Settles O8: no meaning reads its ignored field, save RET for the record of an underflow. -/
theorem ignoredBitsHaveNoEffect : Obligations.IgnoredBitsHaveNoEffect := fun _ b b' _ _ _ _ _ =>
  ⟨rfl, fun h => (execRet_of_no_underflow b h).trans (execRet_of_no_underflow b' h).symm, rfl, rfl, rfl, rfl⟩

end Sys2Proof
end

section
/-! SUPPORT. One fetch-execute cycle: the instruction it runs, the two faults raised before any instruction runs, and
the timers it counts down, over one step and over a run (40_cycle.md rules R90 to R96). -/

namespace Sys2Proof.Machine

/-! ### The instruction a step runs -/

section
variable {s t u : State} {i : Instr}

theorem step_of_decode {op : Word} (hh : s.halt = false) (hf : fetch s = .ok op) (hd : decode op = .ok i) :
    step s = finishStep (exec i (advancePc (beginStep s))) := by
  simp [step, hh, hf, hd]

/-- Settles O12: the start of a step and the PC advance write the four fields that the statement names. -/
theorem stepRunsDecodedInstruction : Obligations.StepRunsDecodedInstruction := fun _ _ _ => step_of_decode

/-- A step that ends running has run the fetched instruction to its end and ticked. -/
theorem step_completes_with (hi : nextInstr s = some i) (h : step s = .next t) (ht : t.halt = false) :
    ∃ u, exec i (advancePc (beginStep s)) = .next u ∧ u.halt = false ∧ t = timerTick u := by
  obtain ⟨j, u, hj, hu, huh, htick⟩ := step_completes h ht
  obtain rfl := Option.some.inj (hi.symm.trans hj)
  exact ⟨u, hu, huh, htick⟩

end

/-! ### The faults raised before any instruction runs -/

theorem frame_advancePc_beginStep (s : State) :
    Frame [.pc, .tone, .awaiting, .loadOpen] s (advancePc (beginStep s)) :=
  (frame_beginStep s).trans_mono (frame_setPc _ _) (by simp) (by simp)

/-- A fault from a state that the start of the step made is a fault from the state the step began in. -/
theorem Faulted.of_start {s s' t : State} {c : Cause} {a op : Word} (h : Faulted c a op s' t)
    (hs : Frame [.pc, .tone, .awaiting, .loadOpen] s s') : Faulted c a op s t := by
  obtain ⟨hhalt, hcause, haddr, hop, htone, hawait, hframe⟩ := h
  exact ⟨hhalt, hcause, haddr, hop, htone, hawait, (hs.mono (by decide)).trans hframe⟩

/-- Settles O13: the second byte of the fetch, if not the first, is above 0xFFF. -/
theorem fetchOutOfRangeFaults : Obligations.FetchOutOfRangeFaults := by
  intro s hh hp hpc
  have hrange : ¬ InRange s.cfg s.pc.toNat 2 := fun h => by
    rcases inRange_two.1 h with hw | hle
    · exact nomatch hp.symm.trans hw
    · omega
  exact ⟨_, _, step_of_fetch_error hh (fetch_of_not_inRange hrange),
    (faulted_enterFault _ _ _ _).of_start ((frame_beginStep s).mono (by simp))⟩

/-- A word that fits no row of the opcode map is illegal, since a legal word fits the row of its instruction. -/
theorem decodeWord?_of_no_row {op : Word} (h : ∀ r ∈ opcodeMap, op &&& r.mask ≠ r.pattern) : decodeWord? op = none := by
  cases hd : decodeWord? op with
  | none => rfl
  | some i =>
    obtain ⟨r, hr, -, hw⟩ := encodeFitsRow i
    rw [encodeDecodeRoundTrip op i (decode_eq_ok.2 hd)] at hw
    exact absurd hw (h r hr)

/-- Settles O14: the word is illegal, and PC - 2 after the advance is the address it was fetched from. -/
theorem unrecognizedWordFaults : Obligations.UnrecognizedWordFaults := by
  intro s op hh hf hrow
  refine ⟨_, step_of_illegal hh hf (decodeWord?_of_no_row hrow), ?_⟩
  rw [advancePc_pc_sub]
  exact (faulted_enterFault _ _ _ _).of_start (frame_advancePc_beginStep s)

/-! ### The timers of one step (rules R95, R96) -/

section
variable {s t u : State} {i : Instr}

/-- What a tick makes of the two timers, and when it sounds. -/
theorem timerTick_timers {d n : Nat} (hd : u.dt.toNat = d) (hn : u.st.toNat = n) :
    (timerTick u).dt.toNat = d - 1 ∧ (timerTick u).st.toNat = n - 1 ∧ ((timerTick u).tone = true ↔ n = 1) := by
  subst hd hn
  refine ⟨countDown_toNat u.dt, countDown_toNat u.st, ?_⟩
  simp [← BitVec.toNat_inj]

theorem dt_mem_changedParts : .dt ∈ changedParts i ↔ ∃ x, i = .ldDtVx x := by
  cases i <;> simp [changedParts]

theorem st_mem_changedParts : .st ∈ changedParts i ↔ ∃ x, i = .ldStVx x := by
  cases i <;> simp [changedParts]

/-- No instruction but LD DT,Vx writes DT (45_input_timers_random.md rule R165). -/
theorem exec_dt (hn : ¬ ∃ x, i = .ldDtVx x) (h : exec i s = .next u) (hu : u.halt = false) : u.dt = s.dt :=
  exec_frame h hu .dt (mt dt_mem_changedParts.1 hn)

/-- No instruction but LD ST,Vx writes ST (45_input_timers_random.md rule R166). -/
theorem exec_st (hn : ¬ ∃ x, i = .ldStVx x) (h : exec i s = .next u) (hu : u.halt = false) : u.st = s.st :=
  exec_frame h hu .st (mt st_mem_changedParts.1 hn)

theorem exec_ldDtVx_dt {x : Nibble} (h : exec (.ldDtVx x) s = .next u) : u.dt = readReg s x := by
  cases h
  rfl

theorem exec_ldStVx_st {x : Nibble} (h : exec (.ldStVx x) s = .next u) : u.st = readReg s x := by
  cases h
  rfl

/-- Settles O17: the instruction sets a timer or leaves it, and the tick counts down from there. -/
theorem timersTickOncePerStep : Obligations.TimersTickOncePerStep := by
  intro s t i hi h ht
  obtain ⟨u, hu, huh, rfl⟩ := step_completes_with hi h ht
  refine timerTick_timers ?dt ?st
  case dt =>
    split
    · simp [exec_ldDtVx_dt hu]
    · next hn => simp [exec_dt (fun ⟨x, hx⟩ => hn x hx) hu huh]
  case st =>
    split
    · simp [exec_ldStVx_st hu]
    · next hn => simp [exec_st (fun ⟨x, hx⟩ => hn x hx) hu huh]

theorem step_dt (hi : nextInstr s = some i) (hn : ¬ ∃ x, i = .ldDtVx x) (h : step s = .next t)
    (ht : t.halt = false) : t.dt.toNat = s.dt.toNat - 1 := by
  obtain ⟨u, hu, huh, rfl⟩ := step_completes_with hi h ht
  exact (timerTick_timers (congrArg BitVec.toNat (exec_dt hn hu huh)) rfl).1

theorem step_st_tone (hi : nextInstr s = some i) (hn : ¬ ∃ x, i = .ldStVx x) (h : step s = .next t)
    (ht : t.halt = false) : t.st.toNat = s.st.toNat - 1 ∧ (t.tone = true ↔ s.st.toNat = 1) := by
  obtain ⟨u, hu, huh, rfl⟩ := step_completes_with hi h ht
  exact (timerTick_timers rfl (congrArg BitVec.toNat (exec_st hn hu huh))).2

end

/-! ### Runs of completed steps -/

section
variable {P : Instr → Prop} {n : Nat} {s t u : State}

theorem runSteps_succ : runSteps (n + 1) s = some t ↔ ∃ u, step s = .next u ∧ runSteps n u = some t := by
  simp only [runSteps]
  cases step s <;> simp

/-- A run that ends running began running, since no step is enabled with HALT = 1 (rule R97). -/
theorem halt_of_runSteps (h : runSteps n s = some t) (ht : t.halt = false) : s.halt = false := by
  cases n with
  | zero =>
    cases h
    exact ht
  | succ n =>
    obtain ⟨u, hu, -⟩ := runSteps_succ.1 h
    exact (step_cases hu).1

theorem NoneInRun.head (h : NoneInRun P (n + 1) s) {i : Instr} (hi : nextInstr s = some i) : ¬ P i :=
  h 0 n.succ_pos s rfl i hi

theorem NoneInRun.tail (h : NoneInRun P (n + 1) s) (hu : step s = .next u) : NoneInRun P n u :=
  fun m hm v hv => h (m + 1) (Nat.succ_lt_succ hm) v (runSteps_succ.2 ⟨u, hu, hv⟩)

/-- Induction on a run that ends running and executes no instruction of `P`, along its first step. -/
theorem runSteps_induction {R : Nat → State → State → Prop} (zero : ∀ s, R 0 s s)
    (succ : ∀ n s u t i, nextInstr s = some i → ¬ P i → step s = .next u → u.halt = false →
      runSteps n u = some t → R n u t → R (n + 1) s t)
    (h : runSteps n s = some t) (ht : t.halt = false) (hP : NoneInRun P n s) : R n s t := by
  induction n generalizing s with
  | zero =>
    cases h
    exact zero _
  | succ n ih =>
    obtain ⟨u, hu, hrun⟩ := runSteps_succ.1 h
    have huh := halt_of_runSteps hrun ht
    obtain ⟨i, _, hi, -⟩ := step_completes hu huh
    exact succ n s u t i hi (hP.head hi) hu huh hrun (ih hrun (hP.tail hu))

end

/-- Settles O18, by induction on the run: its first step takes 1 off DT, and the rest `n`. -/
theorem delayTimerCountsSteps : Obligations.DelayTimerCountsSteps := by
  intro n s t
  refine runSteps_induction (R := fun n s t => t.dt.toNat = s.dt.toNat - n) (fun _ => rfl) ?_
  intro n s u t i hi hn hu huh _ ih
  have hdt := step_dt hi hn hu huh
  omega

/-- Settles O19, by induction on the run: a run of one step sounds iff ST was 1, and in a longer run the steps after
the first start from ST - 1. -/
theorem toneFiresExactlyOnce : Obligations.ToneFiresExactlyOnce := by
  intro n s t hpos h ht hst
  refine runSteps_induction (R := fun n s t => 0 < n → (t.tone = true ↔ s.st.toNat = n)) (by simp) ?_ h ht hst hpos
  intro n s u t i hi hn hu huh hrun ih _
  obtain ⟨hst, htone⟩ := step_st_tone hi hn hu huh
  cases n with
  | zero =>
    cases hrun
    exact htone
  | succ m =>
    rw [ih m.succ_pos]
    omega

end Sys2Proof.Machine
end

section
/-! SUPPORT. Control transfer (41_control_transfer.md): where a jump and a skip leave PC, what CALL and RET do to the
stack, and that the two undo each other. -/

namespace Sys2Proof.Machine

/-! ### Jumps and skips -/

theorem addrOf_toNat (nnn : Addr12) : (addrOf nnn).toNat = nnn.toNat :=
  BitVec.toNat_setWidth_of_le (by decide)

/-- The sum of JP V0,nnn stays below 65536, so it is not reduced (rule R109). -/
theorem addrOf_add_toNat (nnn : Addr12) (b : Byte) :
    (addrOf nnn + b.zeroExtend 16).toNat = nnn.toNat + b.toNat := by
  have hn := nnn.isLt
  have hb := b.isLt
  rw [BitVec.toNat_add, addrOf_toNat, BitVec.toNat_setWidth]
  omega

/-- Settles O20: both jumps write PC and nothing else. -/
theorem jumpsSetPc : Obligations.JumpsSetPc := fun nnn s =>
  ⟨decodeEncodeRoundTrip (.jpNnn nnn), decodeEncodeRoundTrip (.jpV0Nnn nnn),
    ⟨_, rfl, addrOf_toNat nnn, frame_setPc s _⟩, ⟨_, rfl, addrOf_add_toNat nnn _, frame_setPc s _⟩⟩

/-- A skip on a computed condition, stated with the condition that it computes. -/
theorem onlyPc_skipIf (s : State) {c : Bool} {p : Prop} [Decidable p] (h : c = true ↔ p) :
    OnlyPc (if p then s.pc + 2#16 else s.pc) s (skipIf s c) := by
  simpa only [h, OnlyPc] using skipIf_spec s c

/-- Settles O21: each skip is `skipIf` on its comparison. -/
theorem skipsCompareRegisters : Obligations.SkipsCompareRegisters := fun x y n nn s =>
  ⟨decodeEncodeRoundTrip (.seVxNn x nn), decodeEncodeRoundTrip (.sneVxNn x nn),
    decodeEncodeRoundTrip (.seVxVy x y n), decodeEncodeRoundTrip (.sneVxVy x y n),
    ⟨_, rfl, onlyPc_skipIf s beq_iff_eq⟩, ⟨_, rfl, onlyPc_skipIf s bne_iff_ne⟩,
    ⟨_, rfl, onlyPc_skipIf s beq_iff_eq⟩, ⟨_, rfl, onlyPc_skipIf s bne_iff_ne⟩⟩

/-! ### The stack, slot by slot -/

/-- Slot `k` after slot `j` was written. -/
theorem stack_get_set (v : Vector Word 16) {j : Nat} (hj : j < 16) (w : Word) (k : Fin 16) :
    (v.set j w hj).get k = if k.val = j then w else v.get k := by
  simp [Vector.get_eq_getElem, Vector.getElem_set, eq_comm]

theorem push_stack_get (s : State) (w : Word) (k : Fin 16) :
    (push s w).stack.get k = if k.val = s.sp.val % 16 then w else s.stack.get k :=
  stack_get_set _ (Nat.mod_lt _ (by decide)) _ _

theorem pop_stack_get (s : State) (k : Fin 16) :
    (pop s).2.stack.get k = if k.val = popIndex s.sp then 0#16 else s.stack.get k :=
  stack_get_set _ (Nat.mod_lt _ (by decide)) _ _

theorem pop_sp (s : State) : (pop s).2.sp.val = popIndex s.sp := rfl

theorem pop_fst (s : State) {k : Fin 16} (hk : k.val = popIndex s.sp) : (pop s).1 = s.stack.get k := by
  simp [pop, Vector.get_eq_getElem, hk]

theorem spAfterPush_fault {sp : Fin 17} (h : sp.val ≤ 15) : (spAfterPush .fault sp).val = sp.val + 1 :=
  Nat.min_eq_left (by omega)

/-- A pop after a push that did not overflow reads the slot that was pushed to. -/
theorem popIndex_spAfterPush (p : OobPolicy) {sp : Fin 17} (h : sp.val ≤ 15) :
    popIndex (spAfterPush p sp) = sp.val := by
  cases p with
  | fault => rw [popIndex, spAfterPush_fault h]; omega
  | wrap => simp only [popIndex, spAfterPush]; omega

/-- After a push that did not overflow a pop does not underflow. -/
theorem spAfterPush_no_underflow (p : OobPolicy) {sp : Fin 17} (h : sp.val ≤ 15) :
    (spAfterPush p sp).val ≠ 0 ∨ p = .wrap := by
  cases p with
  | fault => exact .inl (by rw [spAfterPush_fault h]; omega)
  | wrap => exact .inr rfl

/-! ### CALL and RET -/

/-- CALL that does not overflow pushes its own address and jumps (rule R102). -/
theorem execCallNnn_of_no_overflow {s : State} (nnn : Addr12) (h : s.sp.val ≤ 15 ∨ s.cfg.oobPolicy = .wrap) :
    execCallNnn nnn s = .next (setPc (push s (s.pc - 2#16)) (addrOf nnn)) :=
  if_neg fun ⟨hsp, hp⟩ => h.elim (by omega) fun hw => by simp [hw] at hp

theorem frame_setPc_of_stack {s t : State} (h : Frame [.stack, .sp] s t) (w : Word) :
    Frame [.pc, .sp, .stack] s (setPc t w) :=
  h.trans_mono (frame_setPc t w) (by decide) (by decide)

/-- Settles O22: the overflow is the branch of a full stack under `fault`, and every other state pushes. -/
theorem callPushesItsAddress : Obligations.CallPushesItsAddress := by
  intro nnn s
  refine ⟨decodeEncodeRoundTrip (.callNnn nnn), fun h => ?pushes, fun hsp hp => ?overflows⟩
  case pushes =>
    refine ⟨_, execCallNnn_of_no_overflow nnn h, addrOf_toNat nnn, fun hp => ?_, fun hp => ?_,
      push_stack_get s _, frame_setPc_of_stack (frame_push s _) _⟩
    · have hsp : s.sp.val ≤ 15 := h.resolve_right (by simp [hp])
      simp [hp, spAfterPush_fault hsp]
    · simp [hp, spAfterPush]
  case overflows => exact ⟨_, if_pos ⟨hsp, hp⟩, faulted_enterFault _ _ _ _⟩

/-- Settles O23: the underflow is the branch of an empty stack under `fault`, and every other state pops. -/
theorem returnPopsAndClears : Obligations.ReturnPopsAndClears := by
  intro b s
  refine ⟨decodeEncodeRoundTrip (.ret b), fun h => ?pops, fun hsp hp => ?underflows⟩
  case pops =>
    exact ⟨_, execRet_of_no_underflow b h, pop_sp s, fun k hk => congrArg (· + 2#16) (pop_fst s hk),
      pop_stack_get s, frame_setPc_of_stack (frame_pop s) _⟩
  case underflows => exact ⟨_, if_pos ⟨hsp, hp⟩, faulted_enterFault _ _ _ _⟩

/-! ### One step of CALL and one of RET -/

section
variable {s t : State}

theorem nextInstr_congr (hp : t.pc = s.pc) (hm : t.mem = s.mem) (hc : t.cfg = s.cfg) :
    nextInstr t = nextInstr s := by
  rw [nextInstr, nextInstr, fetch_congr hp hm hc]

/-- A step whose instruction completes ends with the tick (40_cycle.md rule R90). -/
theorem step_of_completed {i : Instr} {u : State} (hh : s.halt = false) (hi : nextInstr s = some i)
    (hu : exec i (advancePc (beginStep s)) = .next u) (huh : u.halt = false) : step s = .next (timerTick u) := by
  simpa [huh] using step_of_exec hh hi hu

/-- A step that runs a CALL pushes the address it was fetched from. -/
theorem step_callNnn {nnn : Addr12} (hh : s.halt = false) (hsp : s.sp.val ≤ 15)
    (hi : nextInstr s = some (.callNnn nnn)) :
    ∃ t, step s = .next t ∧ t.halt = false ∧ t.pc = addrOf nnn ∧ t.mem = s.mem ∧ t.cfg = s.cfg ∧
      t.sp = spAfterPush s.cfg.oobPolicy s.sp ∧
      ∀ k : Fin 16, t.stack.get k = if k.val = s.sp.val then s.pc else s.stack.get k := by
  have hexec := execCallNnn_of_no_overflow (s := advancePc (beginStep s)) nnn (.inl hsp)
  rw [advancePc_pc_sub] at hexec
  refine ⟨_, step_of_completed hh hi hexec hh, hh, rfl, rfl, rfl, rfl, fun k => ?_⟩
  simpa [Nat.mod_eq_of_lt (Nat.lt_succ_of_le hsp)] using push_stack_get (advancePc (beginStep s)) s.pc k

/-- A step that runs a RET goes on 2 past the address in the slot it clears. -/
theorem step_ret {b : Byte} (hh : s.halt = false) (hsp : s.sp.val ≠ 0 ∨ s.cfg.oobPolicy = .wrap)
    (hi : nextInstr s = some (.ret b)) :
    ∃ t, step s = .next t ∧ t.halt = false ∧ t.sp.val = popIndex s.sp ∧
      (∀ k : Fin 16, k.val = popIndex s.sp → t.pc = s.stack.get k + 2#16) ∧
      ∀ k : Fin 16, t.stack.get k = if k.val = popIndex s.sp then 0#16 else s.stack.get k := by
  have hexec := execRet_of_no_underflow (s := advancePc (beginStep s)) b hsp
  exact ⟨_, step_of_completed hh hi hexec hh, hh, rfl,
    fun k hk => congrArg (· + 2#16) (pop_fst (advancePc (beginStep s)) hk), pop_stack_get (advancePc (beginStep s))⟩

end

/-- Settles O24: RET pops the slot that CALL pushed to, and what it finds there is the address of the CALL. -/
theorem callThenReturnResumes : Obligations.CallThenReturnResumes := by
  intro s nnn b hh hsp hcall hret
  obtain ⟨t, hst, hth, htpc, htmem, htcfg, htsp, htstack⟩ := step_callNnn hh hsp hcall
  have hslot : popIndex t.sp = s.sp.val := htsp ▸ popIndex_spAfterPush _ hsp
  have hnext : nextInstr t = some (.ret b) := (nextInstr_congr (s := setPc s (addrOf nnn)) htpc htmem htcfg).trans hret
  have hpop : t.sp.val ≠ 0 ∨ t.cfg.oobPolicy = .wrap := htsp ▸ htcfg ▸ spAfterPush_no_underflow _ hsp
  obtain ⟨u, htu, huh, husp, hupc, hustack⟩ := step_ret hth hpop hnext
  rw [hslot] at husp hupc hustack
  refine ⟨t, u, hst, htu, htpc ▸ addrOf_toNat nnn, huh, ?pc, Fin.ext husp, fun k => ?slot⟩
  case pc =>
    rw [hupc ⟨s.sp.val, by omega⟩ rfl, htstack, if_pos rfl]
  case slot =>
    rw [hustack]
    split
    · rfl
    · next hk => rw [htstack, if_neg hk]

end Sys2Proof.Machine
end

section
/-! SUPPORT. Register loads and the ALU (42_load_alu.md): the results and the flags as arithmetic on bytes, and that
result and flag together lose nothing. -/

namespace Sys2Proof.Machine

/-! ### Results and flags as numbers -/

section
variable (a b : Byte)

theorem sub_toNat : (a - b).toNat = (256 + a.toNat - b.toNat) % 256 := by
  have hb := b.isLt
  rw [BitVec.toNat_sub]
  omega

theorem shiftRight_one_toNat : (a >>> 1).toNat = a.toNat / 2 := by
  rw [BitVec.toNat_ushiftRight, Nat.shiftRight_eq_div_pow, pow_one]

theorem shiftLeft_one_toNat : (a <<< 1).toNat = a.toNat * 2 % 256 := by
  rw [BitVec.toNat_shiftLeft, Nat.shiftLeft_eq, pow_one]

theorem flagByte_decide (p : Prop) [Decidable p] : flagByte (decide p) = if p then 1#8 else 0#8 := by
  simp only [flagByte, decide_eq_true_eq]

theorem flagByte_toNat (f : Bool) : (flagByte f).toNat = f.toNat := by
  cases f <;> rfl

theorem flagByte_decide_toNat (p : Prop) [Decidable p] : (flagByte (decide p)).toNat = if p then 1 else 0 := by
  rw [flagByte_toNat, Bool.toNat, Bool.cond_decide]

/-- SHR shifts out bit 0, the remainder of the halving (rule R130). -/
theorem flagByte_shiftedOutRight_toNat : (flagByte (shiftedOutRight a)).toNat = a.toNat % 2 := by
  rw [flagByte_toNat, shiftedOutRight, BitVec.getLsbD, Nat.toNat_testBit, pow_zero, Nat.div_one]

/-- SHL shifts out bit 7, the highest (rule R131). -/
theorem flagByte_shiftedOutLeft_toNat : (flagByte (shiftedOutLeft a)).toNat = a.toNat / 128 := by
  have ha := a.isLt
  rw [flagByte_toNat, shiftedOutLeft, BitVec.getLsbD, Nat.toNat_testBit]
  omega

end

/-! ### Loads, ADD Vx,nn and the bitwise instructions -/

/-- A register write of a byte known as a number. -/
theorem onlyReg_of_toNat (s : State) (x : Nibble) {r : Byte} {n : Nat} (hr : r.toNat = n) :
    OnlyReg x (BitVec.ofNat 8 n) s (writeReg s x r) :=
  (BitVec.toNat_eq_nat.1 hr).2 ▸ onlyReg_writeReg s x r

/-- Settles O25: each of the three is one register write. -/
theorem loadsAndAddImmediateWriteVx : Obligations.LoadsAndAddImmediateWriteVx := fun x y nn s =>
  ⟨decodeEncodeRoundTrip (.ldVxNn x nn), decodeEncodeRoundTrip (.addVxNn x nn), decodeEncodeRoundTrip (.ldVxVy x y),
    ⟨_, rfl, onlyReg_writeReg s x nn⟩, ⟨_, rfl, onlyReg_of_toNat s x (BitVec.toNat_add _ nn)⟩,
    ⟨_, rfl, onlyReg_writeReg s x _⟩⟩

/-- A register write of a byte whose bits are known, stated bit by bit. -/
theorem writeReg_bits (s : State) (x : Nibble) {r : Byte} {bit : Nat → Bool} (h : ∀ k, r.getLsbD k = bit k) :
    RegsExcept [x] s (writeReg s x r) ∧ Frame [.v] s (writeReg s x r) ∧
      ∀ k, (readReg (writeReg s x r) x).getLsbD k = bit k := by
  obtain ⟨hx, hregs, hframe⟩ := onlyReg_writeReg s x r
  exact ⟨hregs, hframe, by rwa [hx]⟩

/-- Settles O26: each of the three is one register write, of a byte with those bits. -/
theorem logicOpsWriteVx : Obligations.LogicOpsWriteVx := fun x y s =>
  ⟨decodeEncodeRoundTrip (.orVxVy x y), decodeEncodeRoundTrip (.andVxVy x y), decodeEncodeRoundTrip (.xorVxVy x y),
    ⟨_, rfl, writeReg_bits s x fun _ => BitVec.getLsbD_or⟩, ⟨_, rfl, writeReg_bits s x fun _ => BitVec.getLsbD_and⟩,
    ⟨_, rfl, writeReg_bits s x fun _ => BitVec.getLsbD_xor⟩⟩

/-! ### The instructions with a result and a flag (rule R121) -/

/-- `WriteResultAndFlag` with a result known as a number and a flag known as a byte. -/
theorem resultAndFlag_of_toNat (s : State) (x : Nibble) {r f' : Byte} {f : Bool} {n : Nat} (hr : r.toNat = n)
    (hf : flagByte f = f') : ResultAndFlag x (BitVec.ofNat 8 n) f' s (writeResultAndFlag s x r f) :=
  (BitVec.toNat_eq_nat.1 hr).2 ▸ hf ▸ resultAndFlag_write s x r f

/-- Settles O27: the result is the sum as a byte and the flag its carry. -/
theorem addSetsCarry : Obligations.AddSetsCarry := fun x y s =>
  ⟨decodeEncodeRoundTrip (.addVxVy x y), _, rfl,
    resultAndFlag_of_toNat s x (BitVec.toNat_add _ _) (flagByte_decide _)⟩

/-- Settles O28: the result is the difference as a byte and the flag its borrow. -/
theorem subSetsBorrow : Obligations.SubSetsBorrow := fun x y s =>
  ⟨decodeEncodeRoundTrip (.subVxVy x y), _, rfl, resultAndFlag_of_toNat s x (sub_toNat _ _) (flagByte_decide _)⟩

/-- Settles O29: the result is the half or the double of Vx and the flag the bit that leaves it. -/
theorem shiftsSetBitShiftedOut : Obligations.ShiftsSetBitShiftedOut := by
  intro x y s
  have hright := (BitVec.toNat_eq_nat.1 (flagByte_shiftedOutRight_toNat (readReg s x))).2
  have hleft := (BitVec.toNat_eq_nat.1 (flagByte_shiftedOutLeft_toNat (readReg s x))).2
  exact ⟨decodeEncodeRoundTrip (.shrVx x y), decodeEncodeRoundTrip (.shlVx x y),
    ⟨_, rfl, resultAndFlag_of_toNat s x (shiftRight_one_toNat _) hright⟩,
    ⟨_, rfl, resultAndFlag_of_toNat s x (shiftLeft_one_toNat _) hleft⟩⟩

/-! ### Result and flag are exact (rules R128 to R131) -/

section
variable (a b : Byte)

theorem carryOut_mul_add_add :
    (flagByte (carryOut a b)).toNat * 256 + (a + b).toNat = a.toNat + b.toNat := by
  have ha := a.isLt
  have hb := b.isLt
  rw [carryOut, flagByte_decide_toNat, BitVec.toNat_add]
  split <;> omega

theorem sub_add_eq_add_borrowOut_mul :
    (a - b).toNat + b.toNat = a.toNat + (flagByte (borrowOut a b)).toNat * 256 := by
  have ha := a.isLt
  have hb := b.isLt
  rw [borrowOut, flagByte_decide_toNat, sub_toNat]
  split <;> omega

theorem shiftRight_mul_add_shiftedOutRight :
    (a >>> 1).toNat * 2 + (flagByte (shiftedOutRight a)).toNat = a.toNat := by
  rw [shiftRight_one_toNat, flagByte_shiftedOutRight_toNat]
  omega

theorem shiftedOutLeft_mul_add_shiftLeft :
    (flagByte (shiftedOutLeft a)).toNat * 256 + (a <<< 1).toNat = a.toNat * 2 := by
  rw [shiftLeft_one_toNat, flagByte_shiftedOutLeft_toNat]
  omega

end

/-- Settles O30: with x other than 0xF both writes stand, so Vx and VF hold the result and the flag. -/
theorem flagAndResultAreExact : Obligations.FlagAndResultAreExact := by
  intro x y s t hx
  have hwrites (r : Byte) (f : Bool) := (resultAndFlag_write s x r f).1 hx
  refine ⟨fun h => ?add, fun h => ?sub, fun h => ?shr, fun h => ?shl⟩
  all_goals
    cases h
    obtain ⟨hr, hf⟩ := hwrites _ _
    rw [hr, hf]
  case add => exact carryOut_mul_add_add _ _
  case sub => exact sub_add_eq_add_borrowOut_mul _ _
  case shr => exact shiftRight_mul_add_shiftedOutRight _
  case shl => exact shiftedOutLeft_mul_add_shiftLeft _

end Sys2Proof.Machine
end

section
/-! SUPPORT. The index register, loads and stores (43_index_memory.md): what a run of stores leaves in memory and a run
of loads in the registers, when each raises its fault, and that a bulk load undoes a bulk store. -/

namespace Sys2Proof.Machine

/-! ### Writing the index register -/

theorem glyphAddress_toNat (b : Byte) : (glyphAddress b).toNat = b.toNat * 5 :=
  Nat.mod_eq_of_lt (by have := b.isLt; omega)

/-- Settles O31: both instructions write I and nothing else. -/
theorem indexLoadsSetI : Obligations.IndexLoadsSetI := fun nnn x s =>
  ⟨decodeEncodeRoundTrip (.ldINnn nnn), decodeEncodeRoundTrip (.ldFVx x),
    ⟨_, rfl, addrOf_toNat nnn, frame_setI s _⟩, ⟨_, rfl, glyphAddress_toNat _, frame_setI s _⟩⟩

/-- The sum of ADD I,Vx is reduced modulo 65536 (rule R141). -/
theorem add_zeroExtend_toNat (i : Word) (b : Byte) : (i + b.zeroExtend 16).toNat = (i.toNat + b.toNat) % 65536 := by
  rw [BitVec.toNat_add, BitVec.toNat_setWidth_of_le (by decide)]

/-- Settles O32: ADD I,Vx is a write of I and then one of VF. -/
theorem addIndexSetsFlag : Obligations.AddIndexSetsFlag := fun x s =>
  ⟨decodeEncodeRoundTrip (.addIVx x), _, rfl, add_zeroExtend_toNat s.i _,
    (readReg_writeReg_same _ 0xF#4 _).trans (flagByte_decide _),
    ((frame_setI s _).regs (by decide) _).trans (regsExcept_writeReg _ 0xF#4 _),
    (frame_setI s _).trans_mono (frame_writeReg _ 0xF#4 _) (by decide) (by decide)⟩

/-! ### Accessible addresses (20_memory.md rule R54) -/

section
variable {cfg : Config} {a n : Nat}

theorem inRange_iff : InRange cfg a n ↔ ∀ k, k < n → a + k ≤ 0xFFF ∨ cfg.oobPolicy = .wrap := by
  by_cases hw : cfg.oobPolicy = .wrap
  · simp [InRange, hw]
  · simp only [InRange, hw, false_or, or_false]
    refine ⟨fun h k hk => by omega, fun h => ?_⟩
    have hlast := h (n - 1)
    omega

/-- Accessible addresses, the first apart: the order a run of stores takes. -/
theorem inRange_succ_left :
    InRange cfg a (n + 1) ↔ (a ≤ 0xFFF ∨ cfg.oobPolicy = .wrap) ∧ InRange cfg (a + 1) n := by
  simp only [inRange_iff, Nat.forall_lt_succ_left, Nat.add_zero, Nat.add_assoc, Nat.add_comm 1]

/-- Accessible addresses, the last apart: the order a count upward takes. -/
theorem inRange_succ_right :
    InRange cfg a (n + 1) ↔ InRange cfg a n ∧ (a + n ≤ 0xFFF ∨ cfg.oobPolicy = .wrap) := by
  simp only [inRange_iff, Nat.forall_lt_succ_right]

theorem boundAddress_eq_ok (h : a ≤ 0xFFF ∨ cfg.oobPolicy = .wrap) {a' : Nat} :
    boundAddress cfg a = .ok a' ↔ a' = a % 4096 := by
  rw [boundAddress_of_ok h, Except.ok.injEq, eq_comm]

end

/-! ### How a rule ends -/

section
variable {i : Instr} {s t : State} {r : Except Cause State}

theorem conclude_of_ok (h : r = .ok t) : conclude i s r = .next t := h ▸ rfl

/-- A rule that cannot complete, and has one fault to raise, raises it. -/
theorem conclude_faults {c : Cause} (hok : ∀ t, r ≠ .ok t) (herr : ∀ d, r = .error d → d = c) :
    ∃ t, conclude i s r = .next t ∧ Faulted c (s.pc - 2#16) (encode i) s t := by
  cases r with
  | ok t => exact absurd rfl (hok t)
  | error d =>
    obtain rfl := herr d rfl
    exact ⟨_, rfl, faulted_enterFault _ _ _ _⟩

end

/-! ### A run of stores (rule R59) -/

/-- `t` is `s` with the bytes `bs` at `a` upward, each address under the bounds rule. -/
structure Stored (bs : List Byte) (a : Nat) (s t : State) : Prop where
  stored : ∀ k (hk : k < bs.length), ∀ a', boundAddress s.cfg (a + k) = .ok a' → readByte t a' = bs[k]
  kept : ∀ a', (∀ k, k < bs.length → boundAddress s.cfg (a + k) ≠ .ok a') → readByte t a' = readByte s a'
  frame : Frame [.mem] s t

section
variable {s t u : State} {a : Nat} {b : Byte} {bs : List Byte}

/-- The stores that follow a store go to other addresses, as long as they do not come round. -/
theorem boundAddress_succ_ne (cfg : Config) {k a' : Nat} (hk : k + 1 < 4096) (h : boundAddress cfg a = .ok a') :
    boundAddress cfg (a + 1 + k) ≠ .ok a' := by
  intro h'
  have hfirst := (boundAddress_ok h).1
  have hlater := (boundAddress_ok h').1
  omega

theorem Stored.cons (hm : Memory.wf s.cfg s.mem = true) (hu : memWrite s a b = .ok u) (h : Stored bs (a + 1) u t)
    (hlen : bs.length < 4096) : Stored (b :: bs) a s t := by
  have hcfg : u.cfg = s.cfg := frame_memWrite hu .cfg (by decide)
  obtain ⟨hstored, hkept, hframe⟩ := h
  rw [hcfg] at hstored hkept
  refine ⟨fun k hk a' ha' => ?stored, fun a' ha' => ?kept, (frame_memWrite hu).trans hframe⟩
  case stored =>
    cases k with
    | zero =>
      rw [hkept a' fun j hj => boundAddress_succ_ne _ (by omega) ha', readByte_memWrite hm hu,
        if_pos (Nat.add_zero a ▸ (boundAddress_ok ha').1)]
      rfl
    | succ k => exact hstored k (Nat.lt_of_succ_lt_succ hk) a' (by rwa [Nat.add_assoc, Nat.add_comm 1])
  case kept =>
    have hfirst : a' ≠ a % 4096 := fun he =>
      ha' 0 (Nat.succ_pos _) ((boundAddress_eq_ok (memWrite_ok hu).2).2 he)
    rw [hkept a' fun k hk => ?_, readByte_memWrite hm hu, if_neg hfirst]
    rw [Nat.add_assoc, Nat.add_comm 1]
    exact ha' (k + 1) (Nat.succ_lt_succ hk)

/-- Stores to accessible addresses complete. -/
theorem storeBytes_of_inRange (hm : Memory.wf s.cfg s.mem = true) (hlen : bs.length ≤ 4096)
    (h : InRange s.cfg a bs.length) : ∃ t, storeBytes bs a s = .ok t ∧ Stored bs a s t := by
  induction bs generalizing a s with
  | nil => exact ⟨s, rfl, fun _ hk => absurd hk (Nat.not_lt_zero _), fun _ _ => rfl, Frame.refl _ s⟩
  | cons b bs ih =>
    obtain ⟨hfirst, hrest⟩ := inRange_succ_left.1 h
    have hw := memWrite_of_ok b hfirst
    obtain ⟨t, ht, hst⟩ := ih (wf_memWrite hm hw) (Nat.le_of_succ_le hlen) hrest
    exact ⟨t, by simp only [storeBytes, hw, ht], hst.cons hm hw hlen⟩

/-- Stores that complete were to accessible addresses. -/
theorem inRange_of_storeBytes (h : storeBytes bs a s = .ok t) : InRange s.cfg a bs.length := by
  induction bs generalizing a s with
  | nil => exact .inr (.inl rfl)
  | cons b bs ih =>
    simp only [storeBytes] at h
    split at h
    · next u hu =>
      have hrest := ih h
      rw [show u.cfg = s.cfg from frame_memWrite hu .cfg (by decide)] at hrest
      exact inRange_succ_left.2 ⟨(memWrite_ok hu).2, hrest⟩
    · cases h

/-- An instruction that stores bytes to addresses not all accessible raises AddressOutOfRange. -/
theorem conclude_storeBytes_faults (i : Instr) (h : ¬ InRange s.cfg a bs.length) :
    ∃ t, conclude i s (storeBytes bs a s) = .next t ∧
      Faulted .addressOutOfRange (s.pc - 2#16) (encode i) s t :=
  conclude_faults (fun _ ht => h (inRange_of_storeBytes ht)) fun _ hd => (storeBytes_error hd).1

end

/-- Settles O33: LD B,Vx is a run of three stores, of the digits. -/
theorem decimalDigitsAreStored : Obligations.DecimalDigitsAreStored := by
  intro x s
  refine ⟨decodeEncodeRoundTrip (.ldBVx x), fun hm h => ?stores, fun h => conclude_storeBytes_faults (.ldBVx x) h⟩
  obtain ⟨t, ht, hst⟩ := storeBytes_of_inRange (bs := decimalDigits (readReg s x)) hm (by simp [decimalDigits]) h
  have hread (k : Nat) (hk : k < 3) := hst.stored k hk
  have hx := (readReg s x).isLt
  have digit {n : Nat} (hn : n ≤ (readReg s x).toNat) : (BitVec.ofNat 8 n).toNat = n := Nat.mod_eq_of_lt (by omega)
  refine ⟨t, conclude_of_ok ht, fun a ha => ?hundreds, fun a ha => ?tens, fun a ha => ?ones, hst.kept, hst.frame⟩
  case hundreds => exact (congrArg BitVec.toNat (hread 0 (by decide) a ha)).trans (digit (by omega))
  case tens => exact (congrArg BitVec.toNat (hread 1 (by decide) a ha)).trans (digit (by omega))
  case ones => exact (congrArg BitVec.toNat (hread 2 (by decide) a ha)).trans (digit (by omega))

/-! ### Bulk store (rule R144) -/

theorem regsUpTo_length (s : State) (x : Nibble) : (regsUpTo s x).length = x.toNat + 1 := by
  simp [regsUpTo]

theorem regsUpTo_getElem (s : State) (x : Nibble) {k : Nat} (hk : k < (regsUpTo s x).length) :
    (regsUpTo s x)[k] = readReg s (BitVec.ofNat 4 k) := by
  simp [regsUpTo]

/-- Settles O34: LD [I],Vx is a run of stores, and register `r` is byte `r` of it. -/
theorem bulkStoreWritesRegisters : Obligations.BulkStoreWritesRegisters := by
  intro x s
  have hlen := regsUpTo_length s x
  have hx := x.isLt
  refine ⟨decodeEncodeRoundTrip (.ldMemIVx x), fun hm h => ?stores, fun h => ?faults⟩
  case stores =>
    obtain ⟨t, ht, hst⟩ := storeBytes_of_inRange (bs := regsUpTo s x) hm (by omega) (hlen ▸ h)
    refine ⟨t, conclude_of_ok ht, fun r hr a ha => ?_, fun a ha => hst.kept a fun k hk => ?_, hst.frame⟩
    · rw [hst.stored r.toNat (by omega) a ha, regsUpTo_getElem, BitVec.ofNat_toNat, BitVec.setWidth_eq]
    · have hr : (BitVec.ofNat 4 k).toNat = k := Nat.mod_eq_of_lt (by omega)
      have hne := ha (BitVec.ofNat 4 k)
      rw [hr] at hne
      exact hne (by omega)
  case faults => exact conclude_storeBytes_faults (.ldMemIVx x) (hlen ▸ h)

/-! ### Bulk load (rule R145) -/

theorem forEach_range_succ {f : Nat → State → Except Cause State} {n : Nat} {s t : State} :
    forEach f (List.range (n + 1)) s = .ok t ↔ ∃ u, forEach f (List.range n) s = .ok u ∧ f n u = .ok t := by
  rw [List.range_succ, forEach_append]
  cases forEach f (List.range n) s with
  | ok u => cases h : f n u <;> simp [forEach, h]
  | error c => simp

section
variable {s t : State} {n : Nat}

theorem memRead_accessible {a : Nat} {b : Byte} (h : memRead s a = .ok b) :
    a ≤ 0xFFF ∨ s.cfg.oobPolicy = .wrap := by
  unfold memRead at h
  split at h
  · next ha =>
    obtain ⟨-, -, hr⟩ := boundAddress_ok ha
    exact hr
  · cases h

/-- A load completes iff its address is accessible, and writes the byte there. -/
theorem loadReg_eq_ok {k : Nat} : loadReg k s = .ok t ↔
    (s.i.toNat + k ≤ 0xFFF ∨ s.cfg.oobPolicy = .wrap) ∧
      t = writeReg s (BitVec.ofNat 4 k) (readByte s ((s.i.toNat + k) % 4096)) := by
  refine ⟨fun h => ⟨?accessible, loadReg_ok h⟩, fun ⟨hr, ht⟩ => ?completes⟩
  case accessible =>
    unfold loadReg at h
    split at h
    · next hb => exact memRead_accessible hb
    · cases h
  case completes => simp [loadReg, indexAddress, memRead_of_ok hr, ht]

/-- Loads from accessible addresses complete: V[0] to V[n - 1] are the bytes from I upward. -/
theorem forEach_loadReg_of_inRange (hn : n ≤ 16) (h : InRange s.cfg s.i.toNat n) :
    ∃ t, forEach loadReg (List.range n) s = .ok t ∧ ∀ r : Nibble,
      readReg t r = if r.toNat < n then readByte s ((s.i.toNat + r.toNat) % 4096) else readReg s r := by
  induction n with
  | zero => exact ⟨s, rfl, fun _ => rfl⟩
  | succ n ih =>
    obtain ⟨hinit, hlast⟩ := inRange_succ_right.1 h
    obtain ⟨u, hu, hregs⟩ := ih (Nat.le_of_succ_le hn) hinit
    have hframe := forEach_loadReg_frame hu
    have hi : u.i = s.i := hframe .i (by decide)
    have hmem : ∀ a, readByte u a = readByte s a := (hframe .mem (by decide)).2
    have hcfg : u.cfg = s.cfg := hframe .cfg (by decide)
    refine ⟨_, forEach_range_succ.2 ⟨u, hu, loadReg_eq_ok.2 ⟨by rwa [hi, hcfg], rfl⟩⟩, fun r => ?_⟩
    have hr : r = BitVec.ofNat 4 n ↔ r.toNat = n := by rw [BitVec.toNat_eq, BitVec.toNat_ofNat, Nat.mod_eq_of_lt hn]
    rw [readReg_writeReg, hregs, hmem, hi]
    simp only [hr, Nat.lt_succ_iff_lt_or_eq]
    by_cases he : r.toNat = n <;> simp [he]

/-- Loads that complete were from accessible addresses. -/
theorem inRange_of_forEach_loadReg (h : forEach loadReg (List.range n) s = .ok t) : InRange s.cfg s.i.toNat n := by
  induction n generalizing t with
  | zero => exact .inr (.inl rfl)
  | succ n ih =>
    obtain ⟨u, hu, hlast⟩ := forEach_range_succ.1 h
    have hframe := forEach_loadReg_frame hu
    obtain ⟨hr, -⟩ := loadReg_eq_ok.1 hlast
    rw [show u.i = s.i from hframe .i (by decide), show u.cfg = s.cfg from hframe .cfg (by decide)] at hr
    exact inRange_succ_right.2 ⟨ih hu, hr⟩

end

/-- Settles O35: register `r` up to `x` is loaded from I + r, and those above are not counted over. -/
theorem bulkLoadReadsRegisters : Obligations.BulkLoadReadsRegisters := by
  intro x s
  refine ⟨decodeEncodeRoundTrip (.ldVxMemI x), fun h => ?loads, fun h => ?faults⟩
  case loads =>
    obtain ⟨t, ht, hregs⟩ := forEach_loadReg_of_inRange x.isLt h
    refine ⟨t, conclude_of_ok ht, fun r hr a ha => ?_, fun r hr => ?_, forEach_loadReg_frame ht⟩
    · rw [hregs, if_pos (Nat.lt_succ_of_le hr), (boundAddress_ok ha).1]
      rfl
    · rw [hregs, if_neg (Nat.not_lt.2 hr)]
  case faults =>
    exact conclude_faults (fun _ ht => h (inRange_of_forEach_loadReg ht)) fun _ hd => (forEach_loadReg_error hd).1

/-- Settles O36: the load reads each register from the address that the store wrote it to. -/
theorem bulkStoreLoadRoundTrip : Obligations.BulkStoreLoadRoundTrip := by
  intro x s w hm h
  obtain ⟨t, ht, hstored, -, hframe⟩ := (bulkStoreWritesRegisters x s).2.1 hm h
  have hi : t.i = s.i := hframe .i (by decide)
  have hcfg : t.cfg = s.cfg := hframe .cfg (by decide)
  have h' : InRange t.cfg t.i.toNat (x.toNat + 1) := by rwa [hi, hcfg]
  obtain ⟨u, hu, hloaded, habove, hframe'⟩ := (bulkLoadReadsRegisters x { t with v := w }).2.1 h'
  refine ⟨t, u, ht, hu, (hframe' .i (by decide)).trans hi, fun r => ?_⟩
  split
  · next hr =>
    have ha := boundAddress_of_ok (inRange_iff.1 h r.toNat (Nat.lt_succ_of_le hr))
    have hsame : boundAddress t.cfg (indexAddress t r.toNat) = boundAddress s.cfg (indexAddress s r.toNat) := by
      rw [indexAddress, indexAddress, hi, hcfg]
    exact (hloaded r hr _ (hsame.trans ha)).trans (hstored r hr _ ha)
  · next hr => exact habove r (Nat.not_le.1 hr)

end Sys2Proof.Machine
end

section
/-! SUPPORT. The display (44_display.md): what one pixel, one row and the whole sprite flip and report, and when a
sprite raises a fault. -/

namespace Sys2Proof.Machine

/-! ### CLS -/

/-- Settles O37: CLS replaces the framebuffer and then sets DP. -/
theorem clearScreenZeroesCells : Obligations.ClearScreenZeroesCells := fun b s =>
  ⟨decodeEncodeRoundTrip (.cls b), _, rfl, fun k => by simp [fbCell], rfl,
    (frame_setFb s _).trans_mono (frame_setDp _) (by decide) (by decide)⟩

/-! ### One pixel -/

@[simp] theorem fbCell_writeReg (s : State) (x : Nibble) (b : Byte) (k : Nat) :
    fbCell (writeReg s x b) k = fbCell s k := rfl

@[simp] theorem fbCell_setDp (s : State) (k : Nat) : fbCell (setDp s) k = fbCell s k := rfl

theorem fbCell_plot_same (s : State) {k : Nat} (hk : k < 2048) : fbCell (plot s k) k = !fbCell s k := by
  unfold plot
  split <;> simp [hk]

theorem fbCell_plot_ne (s : State) {k j : Nat} (h : j ≠ k) : fbCell (plot s k) j = fbCell s j := by
  unfold plot
  split <;> simp [fbCell_flipCell_ne _ _ _ h]

/-- A pixel reports a collision, and leaves VF alone where there is none. -/
theorem readReg_plot_vf (s : State) (k : Nat) :
    readReg (plot s k) 0xF#4 = if fbCell s k then 1#8 else readReg s 0xF#4 := by
  unfold plot
  split <;> simp

/-! ### What drawing does to a set of cells -/

/-- `t` is `s` with each of the cells `P` flipped once, and VF 1 if one of them was on (rule R151). -/
structure Plotted (P : Nat → Prop) (s t : State) : Prop where
  flipped : ∀ k, P k → fbCell t k = !fbCell s k
  kept : ∀ k, ¬ P k → fbCell t k = fbCell s k
  collision : (∃ k, P k ∧ fbCell s k = true) → readReg t 0xF#4 = 1#8
  noCollision : (¬ ∃ k, P k ∧ fbCell s k = true) → readReg t 0xF#4 = readReg s 0xF#4
  frame : DrawFrame s t

section
variable {P Q R : Nat → Prop} {s t u : State}

theorem Plotted.none (hP : ∀ k, ¬ P k) : Plotted P s s where
  flipped k hk := absurd hk (hP k)
  kept _ _ := rfl
  collision := fun ⟨k, hk, _⟩ => absurd hk (hP k)
  noCollision _ := rfl
  frame := DrawFrame.refl s

theorem Plotted.plot {k : Nat} (hk : k < 2048) (hP : ∀ j, P j ↔ j = k) : Plotted P s (plot s k) where
  flipped j hj := by
    obtain rfl := (hP j).1 hj
    exact fbCell_plot_same s hk
  kept j hj := fbCell_plot_ne s fun he => hj ((hP j).2 he)
  collision := fun ⟨j, hj, hon⟩ => by
    obtain rfl := (hP j).1 hj
    rw [readReg_plot_vf, if_pos hon]
  noCollision h := by
    rw [readReg_plot_vf, if_neg fun hon => h ⟨k, (hP k).2 rfl, hon⟩]
  frame := ⟨frame_plot s k, regsExcept_plot s k⟩

/-- Drawing on some cells and then on others draws on all of them: the second draw finds its cells as they were. -/
theorem Plotted.trans (h : Plotted P s t) (h' : Plotted Q t u) (hdisj : ∀ k, P k → ¬ Q k)
    (hR : ∀ k, R k ↔ P k ∨ Q k) : Plotted R s u where
  flipped k hk := by
    obtain hp | hq := (hR k).1 hk
    · rw [h'.kept k (hdisj k hp), h.flipped k hp]
    · rw [h'.flipped k hq, h.kept k fun hp => hdisj k hp hq]
  kept k hk := by
    rw [h'.kept k fun hq => hk ((hR k).2 (.inr hq)), h.kept k fun hp => hk ((hR k).2 (.inl hp))]
  collision := fun ⟨k, hk, hon⟩ => by
    by_cases hlater : ∃ j, Q j ∧ fbCell t j = true
    · exact h'.collision hlater
    · have hp : P k := ((hR k).1 hk).resolve_right fun hq =>
        hlater ⟨k, hq, by rwa [h.kept k fun hp => hdisj k hp hq]⟩
      rw [h'.noCollision hlater, h.collision ⟨k, hp, hon⟩]
  noCollision hno := by
    have hearlier : ¬ ∃ k, P k ∧ fbCell s k = true := fun ⟨k, hp, hon⟩ => hno ⟨k, (hR k).2 (.inl hp), hon⟩
    have hlater : ¬ ∃ k, Q k ∧ fbCell t k = true := fun ⟨k, hq, hon⟩ =>
      hno ⟨k, (hR k).2 (.inr hq), by rwa [← h.kept k fun hp => hdisj k hp hq]⟩
    rw [h'.noCollision hlater, h.noCollision hearlier]
  frame := DrawFrame.trans _ _ _ h.frame h'.frame

end

/-! ### Counted loops -/

section
variable {f : Nat → State → Except Cause State} {m n : Nat} {s t u : State}

/-- A loop whose iterations draw on cells of their own draws on all of them. -/
theorem forEach_plotted {F : Nat → Nat → Prop}
    (hf : ∀ j, j < n → ∀ u, DrawFrame s u → ∃ t, f j u = .ok t ∧ Plotted (F j) u t)
    (hdisj : ∀ i j k, i < j → j < n → F i k → ¬ F j k) :
    ∃ t, forEach f (List.range n) s = .ok t ∧ Plotted (fun k => ∃ j, j < n ∧ F j k) s t := by
  induction n with
  | zero => exact ⟨s, rfl, .none fun _ ⟨_, hj, _⟩ => absurd hj (Nat.not_lt_zero _)⟩
  | succ n ih =>
    obtain ⟨u, hu, hinit⟩ := ih (fun j hj => hf j (Nat.lt_succ_of_lt hj))
      fun i j k hij hj => hdisj i j k hij (Nat.lt_succ_of_lt hj)
    obtain ⟨t, ht, hlast⟩ := hf n n.lt_succ_self u hinit.frame
    exact ⟨t, forEach_range_succ.2 ⟨u, hu, ht⟩, hinit.trans hlast
      (fun k ⟨i, hi, hk⟩ => hdisj i n k hi n.lt_succ_self hk) fun k => Nat.exists_lt_succ_right⟩

/-- A loop ends at the first iteration that raises. -/
theorem forEach_range_error {c : Cause} (hu : forEach f (List.range m) s = .ok u) (hc : f m u = .error c) (h : m < n) :
    forEach f (List.range n) s = .error c := by
  induction h with
  | refl => simp [List.range_succ, forEach_append, hu, forEach, hc]
  | step _ ih => simp [List.range_succ, forEach_append, ih]

/-- In a loop that completes under `fault`, whose iterations keep the parameters, every iteration completed under it. -/
theorem forEach_ok_cfg {P : Nat → Prop} (hk : ∀ k s t, f k s = .ok t → t.cfg = s.cfg)
    (hf : ∀ k s t, f k s = .ok t → s.cfg.oobPolicy = .fault → P k) {ks : List Nat} (h : forEach f ks s = .ok t)
    (hp : s.cfg.oobPolicy = .fault) : ∀ k ∈ ks, P k := by
  induction ks generalizing s with
  | nil => simp
  | cons k ks ih =>
    simp only [forEach] at h
    split at h
    · next u hu => exact List.forall_mem_cons.2 ⟨hf k s u hu hp, ih h (by rwa [hk k s u hu])⟩
    · cases h

end

/-! ### Columns and rows of a sprite (rules R151 to R153, R189) -/

theorem boundPixel_of_ok {cfg : Config} {px py : Nat} (h : (px ≤ 63 ∧ py ≤ 31) ∨ cfg.oobPolicy = .wrap) :
    boundPixel cfg px py = .ok (py % 32 * 64 + px % 64) := by
  unfold boundPixel
  split
  · next hb => rw [Nat.mod_eq_of_lt (by omega), Nat.mod_eq_of_lt (by omega)]
  · next hb => rw [h.resolve_left hb]

/-- A column of a sprite row draws on the one cell its bit lands on, if the bit is set. -/
theorem drawColumn_plotted {b : Byte} {xs py col : Nat} {u : State}
    (h : spriteBit b col = true → (xs + col ≤ 63 ∧ py ≤ 31) ∨ u.cfg.oobPolicy = .wrap) :
    ∃ t, drawColumn b xs py col u = .ok t ∧
      Plotted (fun k => spriteBit b col = true ∧ py % 32 * 64 + (xs + col) % 64 = k) u t := by
  unfold drawColumn
  split
  · next hb =>
    rw [boundPixel_of_ok (h hb)]
    exact ⟨_, rfl, .plot (by omega) fun j => by simp [hb, eq_comm]⟩
  · next hb => exact ⟨u, rfl, .none fun _ hk => hb hk.1⟩

/-- A set bit drawn under `fault` is on the grid. -/
theorem onGrid_of_drawColumn {b : Byte} {xs py col : Nat} {u t : State} (h : drawColumn b xs py col u = .ok t)
    (hp : u.cfg.oobPolicy = .fault) : spriteBit b col = true → xs + col ≤ 63 ∧ py ≤ 31 := by
  intro hb
  simp only [drawColumn, hb, if_true] at h
  split at h
  · next hk => exact (boundPixel_ok hk).2.resolve_right (by simp [hp])
  · cases h

/-- The one fault of a column, and under which policy it is raised (rule R152). -/
theorem drawColumn_error {b : Byte} {xs py col : Nat} {u : State} {c : Cause}
    (h : drawColumn b xs py col u = .error c) : c = .drawOutOfBounds ∧ u.cfg.oobPolicy = .fault := by
  unfold drawColumn at h
  split at h
  · split at h
    · cases h
    · next hk =>
      cases h
      obtain ⟨hc, -, hp⟩ := boundPixel_error hk
      exact ⟨hc, hp⟩
  · cases h

/-- Columns with a set bit off the grid raise DrawOutOfBounds under `fault`. -/
theorem drawColumns_of_off_grid {b : Byte} {xs py : Nat} {u : State} (hp : u.cfg.oobPolicy = .fault)
    (h : ¬ ∀ col, col < 8 → spriteBit b col = true → xs + col ≤ 63 ∧ py ≤ 31) :
    forEach (drawColumn b xs py) (List.range 8) u = .error .drawOutOfBounds := by
  have hkeep (col : Nat) (v w : State) (hv : drawColumn b xs py col v = .ok w) : w.cfg = v.cfg :=
    (drawColumn_frame hv).1 .cfg (by decide)
  cases hd : forEach (drawColumn b xs py) (List.range 8) u with
  | ok t =>
    have hgrid := forEach_ok_cfg hkeep (fun _ _ _ => onGrid_of_drawColumn) hd hp
    exact absurd (fun col hcol => hgrid col (List.mem_range.2 hcol)) h
  | error c => rw [(forEach_error_cfg hkeep (fun _ _ _ => drawColumn_error) hd).1]

/-- A set bit of row `row` lands on cell `k`. -/
def RowCovers (s : State) (x y : Nibble) (row k : Nat) : Prop :=
  ∃ col, col < 8 ∧ SpriteSet s row col ∧ spriteTarget s x y row col = k

theorem covers_iff {s : State} {x y n : Nibble} {k : Nat} :
    Covers s x y n k ↔ ∃ row, row < n.toNat ∧ RowCovers s x y row k := by
  unfold Covers RowCovers
  exact ⟨fun ⟨row, col, hr, h⟩ => ⟨row, hr, col, h⟩, fun ⟨row, hr, col, h⟩ => ⟨row, col, hr, h⟩⟩

theorem Covers.lt {s : State} {x y n : Nibble} {k : Nat} (h : Covers s x y n k) : k < 2048 := by
  obtain ⟨row, col, -, -, -, rfl⟩ := h
  unfold spriteTarget
  omega

/-- A sprite has at most 15 rows, so no two of them reach the same row of the grid. -/
theorem RowCovers.disjoint {s : State} {x y : Nibble} {i j k : Nat} (hij : i < j) (hj : j < 32)
    (hi : RowCovers s x y i k) : ¬ RowCovers s x y j k := by
  obtain ⟨c, -, -, rfl⟩ := hi
  rintro ⟨d, -, -, hd⟩
  unfold spriteTarget at hd
  omega

section
variable {s u : State} {x y : Nibble} {row : Nat}

/-- While a sprite is drawn its bytes are where they were. -/
theorem memRead_drawing (h : DrawFrame s u) (hr : s.i.toNat + row ≤ 0xFFF ∨ s.cfg.oobPolicy = .wrap) :
    memRead u (indexAddress u row) = .ok (readByte s ((s.i.toNat + row) % 4096)) := by
  have hi : u.i = s.i := h.1 .i (by decide)
  have hcfg : u.cfg = s.cfg := h.1 .cfg (by decide)
  rw [indexAddress, hi, memRead_of_ok (by rwa [hcfg]), (h.1 .mem (by decide)).2]

/-- A row that fits, or any row under `wrap`, draws on the cells under its set bits. -/
theorem drawRow_plotted (h : DrawFrame s u) (hfit : s.cfg.oobPolicy = .wrap ∨ RowFits s x y row) :
    ∃ t, drawRow (readReg s x).toNat (readReg s y).toNat row u = .ok t ∧ Plotted (RowCovers s x y row) u t := by
  rw [drawRow, memRead_drawing h (hfit.symm.imp_left And.left)]
  refine forEach_plotted (fun col hcol v hv => drawColumn_plotted fun hb => ?_) fun i j k hij hj hi => ?_
  · have hcfg : v.cfg = s.cfg := (DrawFrame.trans _ _ _ h hv).1 .cfg (by decide)
    rw [hcfg]
    exact hfit.symm.imp_left fun hf => hf.2 col hcol hb
  · obtain ⟨-, rfl⟩ := hi
    rintro ⟨-, hk⟩
    unfold spriteTarget at hk
    omega

/-- A row that does not fit raises under `fault`: for its byte if that is out of range, else for a pixel. -/
theorem drawRow_of_not_fits (h : DrawFrame s u) (hp : s.cfg.oobPolicy = .fault) (hfit : ¬ RowFits s x y row) :
    drawRow (readReg s x).toNat (readReg s y).toNat row u =
      .error (if s.i.toNat + row > 0xFFF then .addressOutOfRange else .drawOutOfBounds) := by
  have hi : u.i = s.i := h.1 .i (by decide)
  have hp' : u.cfg.oobPolicy = .fault := by rwa [show u.cfg = s.cfg from h.1 .cfg (by decide)]
  unfold drawRow
  split_ifs with ha
  · rw [indexAddress, hi, memRead_of_error ha hp']
  · rw [memRead_drawing h (.inl (Nat.not_lt.1 ha))]
    exact drawColumns_of_off_grid hp' fun hgrid => hfit ⟨Nat.not_lt.1 ha, hgrid⟩

end

/-! ### The whole sprite -/

/-- VF cleared and the first `m` rows of the sprite drawn. -/
def drawRows (s : State) (x y : Nibble) (m : Nat) : Except Cause State :=
  forEach (drawRow (readReg s x).toNat (readReg s y).toNat) (List.range m) (writeReg s 0xF#4 0#8)

section
variable {s t : State} {x y n : Nibble}

theorem execDrw_of_ok (h : drawRows s x y n.toNat = .ok t) : exec (.drwVxVyN x y n) s = .next (setDp t) := by
  unfold drawRows at h
  simp [exec, execDrwVxVyN, h, conclude]

theorem execDrw_of_error {c : Cause} (h : drawRows s x y n.toNat = .error c) :
    exec (.drwVxVyN x y n) s = raise c (.drwVxVyN x y n) s := by
  unfold drawRows at h
  simp [exec, execDrwVxVyN, h, conclude]

theorem drawFrame_writeVf (s : State) (b : Byte) : DrawFrame s (writeReg s 0xF#4 b) :=
  ⟨(frame_writeReg s 0xF#4 b).mono (by decide), regsExcept_writeReg s 0xF#4 b⟩

/-- Rows that fit, or any rows under `wrap`, draw on the cells under their set bits. -/
theorem drawRows_plotted {m : Nat} (hm : m ≤ 16) (hfit : s.cfg.oobPolicy = .wrap ∨ ∀ row, row < m → RowFits s x y row) :
    ∃ t, drawRows s x y m = .ok t ∧
      Plotted (fun k => ∃ row, row < m ∧ RowCovers s x y row k) (writeReg s 0xF#4 0#8) t :=
  forEach_plotted
    (fun row hrow _ hu => drawRow_plotted (DrawFrame.trans _ _ _ (drawFrame_writeVf s 0#8) hu)
      (hfit.imp_right fun h => h row hrow))
    fun _ _ _ hij hj => RowCovers.disjoint hij (by omega)

/-- A draw that fits completes, and draws on the cells the sprite covers. -/
theorem execDrw_of_fits (h : DrawFits s x y n) :
    ∃ t, exec (.drwVxVyN x y n) s = .next (setDp t) ∧ Plotted (Covers s x y n) (writeReg s 0xF#4 0#8) t := by
  obtain ⟨t, ht, hplot⟩ := drawRows_plotted (Nat.le_of_lt n.isLt) h
  simp only [← covers_iff] at hplot
  exact ⟨t, execDrw_of_ok ht, hplot⟩

/-- The first row that does not fit raises its fault (rule R189). -/
theorem drawRows_of_not_fits {row m : Nat} (hp : s.cfg.oobPolicy = .fault) (hrow : row < m) (hm : m ≤ 16)
    (hbefore : ∀ r, r < row → RowFits s x y r) (hfit : ¬ RowFits s x y row) :
    drawRows s x y m = .error (if s.i.toNat + row > 0xFFF then .addressOutOfRange else .drawOutOfBounds) := by
  obtain ⟨u, hu, hplot⟩ := drawRows_plotted (Nat.le_of_lt (Nat.lt_of_lt_of_le hrow hm)) (.inr hbefore)
  have hframe := DrawFrame.trans _ _ _ (drawFrame_writeVf s 0#8) hplot.frame
  exact forEach_range_error hu (drawRow_of_not_fits hframe hp hfit) hrow

end

/-- Settles O38: a draw that fits draws on the cells it covers, and one that does not ends at its first such row. -/
theorem drawXorsSpriteAndReportsCollision : Obligations.DrawXorsSpriteAndReportsCollision := by
  intro x y n s
  refine ⟨decodeEncodeRoundTrip (.drwVxVyN x y n), fun h => ?fits, fun row hp hrow hbefore hfit => ?faults⟩
  case fits =>
    obtain ⟨t, ht, hplot⟩ := execDrw_of_fits h
    obtain ⟨hframe, hregs⟩ := DrawFrame.trans _ _ _ (drawFrame_writeVf s 0#8) hplot.frame
    exact ⟨setDp t, ht, fun k _ => hplot.flipped k, fun k _ => hplot.kept k, hplot.collision,
      fun hno => (hplot.noCollision hno).trans (readReg_writeReg_same s 0xF#4 0#8), rfl, hregs,
      hframe.trans_mono (frame_setDp t) (by decide) (by decide)⟩
  case faults =>
    have herr := drawRows_of_not_fits hp hrow (Nat.le_of_lt n.isLt) hbefore hfit
    exact ⟨_, execDrw_of_error herr, faulted_enterFault _ _ _ _⟩

/-! ### Drawing twice -/

section
variable {s t : State} {x y n : Nibble}

theorem spriteSet_congr (h : Frame [.v, .fb, .dp] s t) (row col : Nat) : SpriteSet t row col ↔ SpriteSet s row col := by
  have hi : t.i = s.i := h .i (by decide)
  rw [SpriteSet, SpriteSet, hi, (h .mem (by decide)).2]

/-- The cells of a sprite depend on its place and its bytes, and a draw changes neither if the place is not in VF. -/
theorem covers_congr (h : Frame [.v, .fb, .dp] s t) (hx : readReg t x = readReg s x) (hy : readReg t y = readReg s y)
    (k : Nat) : Covers t x y n k ↔ Covers s x y n k := by
  simp only [Covers, spriteTarget, spriteSet_congr h, hx, hy]

theorem drawFits_congr (h : Frame [.v, .fb, .dp] s t) (hx : readReg t x = readReg s x)
    (hy : readReg t y = readReg s y) : DrawFits t x y n ↔ DrawFits s x y n := by
  have hi : t.i = s.i := h .i (by decide)
  have hcfg : t.cfg = s.cfg := h .cfg (by decide)
  simp only [DrawFits, RowFits, spriteSet_congr h, hx, hy, hi, hcfg]

end

/-- Settles O39: the second draw covers the same cells, and finds each of them flipped. -/
theorem drawTwiceRestoresFramebuffer : Obligations.DrawTwiceRestoresFramebuffer := by
  intro x y n s hx hy hfit
  obtain ⟨t, ht, hflip, hkeep, -, -, -, hregs, hframe⟩ := (drawXorsSpriteAndReportsCollision x y n s).2.1 hfit
  have hxt : readReg t x = readReg s x := hregs x (by simpa using hx)
  have hyt : readReg t y = readReg s y := hregs y (by simpa using hy)
  have hcovers (k : Nat) : Covers t x y n k ↔ Covers s x y n k := covers_congr hframe hxt hyt k
  obtain ⟨u, hu, hflip', hkeep', hone, hzero, -⟩ :=
    (drawXorsSpriteAndReportsCollision x y n t).2.1 ((drawFits_congr hframe hxt hyt).2 hfit)
  simp only [hcovers] at hflip' hkeep' hone hzero
  refine ⟨t, u, ht, hu, fun k hk => ?cells, ?flag⟩
  case cells =>
    by_cases hc : Covers s x y n k
    · rw [hflip' k hk hc, hflip k hk hc, Bool.not_not]
    · rw [hkeep' k hk hc, hkeep k hk hc]
  case flag =>
    have hoff : (∃ k, Covers s x y n k ∧ fbCell t k = true) ↔ ∃ k, Covers s x y n k ∧ fbCell s k = false :=
      exists_congr fun k => and_congr_right fun hc => by rw [hflip k hc.lt hc, Bool.not_eq_true']
    rw [← hoff]
    refine ⟨fun h => ?_, hone⟩
    by_contra hno
    rw [hzero hno] at h
    exact absurd h (by decide)

end Sys2Proof.Machine
end

section
/-! SUPPORT. Random numbers, the keypad and the timers (45_input_timers_random.md): the one draw of RND, the latch cell
that a key skip tests, and the wait for a key, over one step and over a run. -/

namespace Sys2Proof.Machine

/-! ### RND and the timer copies -/

/-- Settles O40: RND is one draw and then one write of a register. -/
theorem randomIsOneMaskedDraw : Obligations.RandomIsOneMaskedDraw := by
  intro x nn s
  obtain ⟨hx, hregs, hframe⟩ := onlyReg_writeReg (drawRandom s).2 x (Config.randByte s.freeIx &&& nn)
  refine ⟨decodeEncodeRoundTrip (.rndVxNn x nn), _, rfl, hx, ?masked, rfl, hregs,
    (frame_drawRandom s).trans_mono hframe (by decide) (by decide)⟩
  rw [drawRandom_fst, hx, BitVec.and_assoc, BitVec.and_not_self]
  exact BitVec.and_zero

/-- Settles O44: each of the three is one write, of a register or of a timer. -/
theorem timerInstructionsCopy : Obligations.TimerInstructionsCopy := fun x s =>
  ⟨decodeEncodeRoundTrip (.ldVxDt x), decodeEncodeRoundTrip (.ldDtVx x), decodeEncodeRoundTrip (.ldStVx x),
    ⟨_, rfl, onlyReg_writeReg s x s.dt⟩, ⟨_, rfl, rfl, frame_setDt s _⟩, ⟨_, rfl, rfl, frame_setSt s _⟩⟩

/-! ### Key skips (rules R161, R162, R168) -/

section
variable {s : State} {x : Nibble} {r : Except Cause Bool}

theorem keyCell_of_error {vx : Byte} (h : 15 < vx.toNat) (hp : s.cfg.oobPolicy = .fault) :
    keyCell s vx = .error .keyIndexOutOfRange := by
  simp [keyCell, Nat.not_le.2 h, hp]

theorem readKey_eq_get {n : Nat} {k : Fin 16} (hk : k.val = n % 16) : readKey s n = s.key.get k := by
  simp [readKey, Vector.get_eq_getElem, hk]

/-! Each skip by what its key index names: a latch cell to skip by, or the fault to take. -/

theorem execSkpVx_of_keyCell (h : keyCell s (readReg s x) = r) :
    exec (.skpVx x) s = conclude (.skpVx x) s (r.map (skipIf s)) := by
  subst h
  simp only [exec, execSkpVx]
  cases keyCell s (readReg s x) <;> rfl

theorem execSknpVx_of_keyCell (h : keyCell s (readReg s x) = r) :
    exec (.sknpVx x) s = conclude (.sknpVx x) s (r.map fun d => skipIf s !d) := by
  subst h
  simp only [exec, execSknpVx]
  cases keyCell s (readReg s x) <;> rfl

end

/-- Settles O41: each of the two is `skipIf` on the latch cell, or the fault of naming none. -/
theorem keySkipsTestTheLatch : Obligations.KeySkipsTestTheLatch := by
  intro x s
  refine ⟨decodeEncodeRoundTrip (.skpVx x), decodeEncodeRoundTrip (.sknpVx x), fun h k hk => ?skips,
    fun hx hp => ?faults⟩
  case skips =>
    have hcell : keyCell s (readReg s x) = .ok (s.key.get k) := by rw [keyCell_of_ok h, readKey_eq_get hk]
    exact ⟨⟨_, execSkpVx_of_keyCell hcell, onlyPc_skipIf s Iff.rfl⟩,
      ⟨_, execSknpVx_of_keyCell hcell, onlyPc_skipIf s (Bool.not_eq_true' _).to_iff⟩⟩
  case faults =>
    have hcell := keyCell_of_error hx hp
    exact ⟨⟨_, execSkpVx_of_keyCell hcell, faulted_enterFault _ _ _ _⟩,
      ⟨_, execSknpVx_of_keyCell hcell, faulted_enterFault _ _ _ _⟩⟩

/-! ### LD Vx,K (rule R164) -/

section
variable {s : State} {x : Nibble}

theorem execLdVxK_of_no_event (h : s.kc = true) :
    exec (.ldVxK x) s = .next { setPc s (s.pc - 2#16) with awaiting := true } := if_pos h

theorem execLdVxK_of_event (h : s.kc = false) :
    exec (.ldVxK x) s = .next { writeReg s x (s.kev.zeroExtend 8) with kc := true } := if_neg (by simp [h])

end

theorem readReg_writeReg_zeroExtend_toNat (s : State) (x k : Nibble) :
    (readReg (writeReg s x (k.zeroExtend 8)) x).toNat = k.toNat := by
  rw [readReg_writeReg_same, BitVec.toNat_setWidth_of_le (by decide)]

/-- Settles O42: without an event LD Vx,K writes PC and then AWAIT, with one a register and then KC. -/
theorem waitForKeyConsumesOneEvent : Obligations.WaitForKeyConsumesOneEvent := fun x s =>
  ⟨decodeEncodeRoundTrip (.ldVxK x),
    fun h => ⟨_, execLdVxK_of_no_event h, rfl, rfl,
      (frame_setPc s _).trans_mono (frame_setAwaiting _ true) (by decide) (by decide)⟩,
    fun h => ⟨_, execLdVxK_of_event h, readReg_writeReg_zeroExtend_toNat s x s.kev, rfl, regsExcept_writeReg s x _,
      (frame_writeReg s x _).trans_mono (frame_setKc _ true) (by decide) (by decide)⟩⟩

/-! ### The wait for a key (rules R164, R213) -/

/-- What `n` steps of waiting for a key make of `s`. A state that asserts AWAIT goes on asserting it, so that two waits
in a row are one. -/
structure Waited (n : Nat) (s t : State) : Prop where
  awaits : 0 < n ∨ s.awaiting = true → t.awaiting = true
  dt : t.dt.toNat = s.dt.toNat - n
  st : t.st.toNat = s.st.toNat - n
  frame : Frame [.dt, .st, .tone, .awaiting, .loadOpen] s t

section
variable {m n : Nat} {s t u : State} {x : Nibble}

theorem Waited.refl (s : State) : Waited 0 s s := ⟨by simp, rfl, rfl, Frame.refl _ s⟩

theorem Waited.trans (h : Waited m s t) (h' : Waited n t u) : Waited (n + m) s u where
  awaits ha := by
    by_cases hn : 0 < n
    · exact h'.awaits (.inl hn)
    · exact h'.awaits (.inr (h.awaits (ha.imp_left fun hnm => by omega)))
  dt := by rw [h'.dt, h.dt, Nat.sub_sub, Nat.add_comm]
  st := by rw [h'.st, h.st, Nat.sub_sub, Nat.add_comm]
  frame := h.frame.trans h'.frame

theorem Waited.nextInstr (h : Waited n s t) : nextInstr t = nextInstr s :=
  nextInstr_congr (h.frame .pc (by decide)) (h.frame .mem (by decide)).1 (h.frame .cfg (by decide))

/-- The rewind of LD Vx,K undoes the PC advance, so that the step is its start and its end. -/
theorem step_ldVxK_of_no_event (hh : s.halt = false) (hkc : s.kc = true) (hi : nextInstr s = some (.ldVxK x)) :
    step s = .next (timerTick { beginStep s with awaiting := true }) := by
  have hexec := execLdVxK_of_no_event (s := advancePc (beginStep s)) (x := x) hkc
  rw [advancePc_pc_sub] at hexec
  exact step_of_completed hh hi hexec hh

theorem step_ldVxK_of_event (hh : s.halt = false) (hkc : s.kc = false) (hi : nextInstr s = some (.ldVxK x)) :
    step s = .next (timerTick { writeReg (advancePc (beginStep s)) x (s.kev.zeroExtend 8) with kc := true }) :=
  step_of_completed hh hi (execLdVxK_of_event hkc) hh

theorem waited_step (s : State) : Waited 1 s (timerTick { beginStep s with awaiting := true }) where
  awaits _ := rfl
  dt := countDown_toNat s.dt
  st := countDown_toNat s.st
  frame := ((frame_beginStep s).trans_mono (frame_setAwaiting _ true) (by simp) (by simp)).trans_mono
    (frame_timerTick _) (List.Subset.refl _) (by simp)

/-- The core waits for as long as no key goes down. -/
theorem runSteps_waits (n : Nat) (hh : s.halt = false) (hkc : s.kc = true) (hi : nextInstr s = some (.ldVxK x)) :
    ∃ t, runSteps n s = some t ∧ Waited n s t := by
  induction n generalizing s with
  | zero => exact ⟨s, rfl, Waited.refl s⟩
  | succ n ih =>
    have hfirst := waited_step s
    obtain ⟨t, hrun, hrest⟩ := ih (s := timerTick { beginStep s with awaiting := true }) hh hkc
      (hfirst.nextInstr.trans hi)
    exact ⟨t, runSteps_succ.2 ⟨_, step_ldVxK_of_no_event hh hkc hi, hrun⟩, hfirst.trans hrest⟩

end

/-- Settles O43: the wait leaves the core where it was, and KeyDown latches the event that the next step consumes. -/
theorem keyWaitSpinsUntilKeyDown : Obligations.KeyWaitSpinsUntilKeyDown := by
  intro x k s n hh hkc hi
  obtain ⟨t, hrun, hwait⟩ := runSteps_waits n hh hkc hi
  have hth : t.halt = false := (hwait.frame .halt (by decide)).trans hh
  have htpc : t.pc = s.pc := hwait.frame .pc (by decide)
  have hnext : nextInstr (keyDown t k) = some (.ldVxK x) :=
    (nextInstr_congr (s := t) rfl rfl rfl).trans (hwait.nextInstr.trans hi)
  exact ⟨t, keyDown t k, _, hrun, htpc, fun hn => hwait.awaits (.inl hn), hwait.dt, hwait.st, hwait.frame, rfl,
    step_ldVxK_of_event hth rfl hnext, readReg_writeReg_zeroExtend_toNat _ x k, rfl, rfl,
    congrArg (· + 2#16) htpc⟩

end Sys2Proof.Machine
end

section
/-! SUPPORT. Faults, the end of a program, and the host (60_exceptions.md): what a step that ends halted has written,
what a jump to itself goes on doing, and what each move of the host does. -/

namespace Sys2Proof.Machine

/-! ### A step that ends halted (rules R181, R182) -/

/-- A fault of the fetched word, entered once PC has advanced, is a fault at the address the word was fetched from. -/
theorem faulted_of_fetched (c : Cause) (op : Word) (s : State) :
    Faulted c s.pc op s (enterFault c ((advancePc (beginStep s)).pc - 2#16) op (advancePc (beginStep s))) := by
  rw [advancePc_pc_sub]
  exact (faulted_enterFault _ _ _ _).of_start (frame_advancePc_beginStep s)

/-- A step that ends halted has taken one fault, at the address it fetched from and of the word it fetched, if any;
under `wrap` it can only have met an illegal word. -/
theorem step_faults {s t : State} (h : step s = .next t) (ht : t.halt = true) :
    ∃ c op, Faulted c s.pc op s t ∧ (∀ w, fetch s = .ok w → op = w) ∧
      (s.cfg.oobPolicy = .wrap → c = .unrecognizedOpcode) := by
  obtain ⟨hrun, ⟨c, hf, rfl⟩ | ⟨op, hf, -, rfl⟩ | ⟨op, i, u, hf, hd, hu, rfl⟩⟩ := step_cases h
  case inl =>
    obtain ⟨-, hp, -⟩ := fetch_error hf
    exact ⟨c, _, (faulted_enterFault _ _ _ _).of_start ((frame_beginStep s).mono (by simp)), by simp [hf],
      fun hw => nomatch hp.symm.trans hw⟩
  case inr.inl => exact ⟨_, op, faulted_of_fetched _ op s, by simp [hf], fun _ => rfl⟩
  case inr.inr =>
    cases huh : u.halt with
    | false => simp [huh] at ht
    | true =>
      obtain ⟨c, rfl, -, hp⟩ := exec_halts (s := advancePc (beginStep s)) hrun hu huh
      rw [if_pos rfl, encodeDecodeRoundTrip op i (decode_eq_ok.2 hd)]
      exact ⟨c, op, faulted_of_fetched c op s, by simp [hf], fun hw => nomatch hp.symm.trans hw⟩

/-- Settles O16: the one fault that the step has taken wrote the record, and left the host's state alone. -/
theorem faultRecordIsComplete : Obligations.FaultRecordIsComplete := by
  intro s t h ht
  obtain ⟨c, op, ⟨-, hcause, haddr, hop, htone, hawait, hframe⟩, hfetch, hwrap⟩ := step_faults h ht
  obtain ⟨hle, hge⟩ := c.code_range
  exact ⟨haddr, fun w hw => hop.trans (hfetch w hw), hcause ▸ hle, hcause ▸ hge,
    fun hw => hcause.trans (congrArg Cause.code (hwrap hw)), htone, hawait, hframe .key (by decide),
    hframe .kev (by decide), hframe .cfg (by decide)⟩

/-! ### The end of a program (rule R197) -/

section
variable {s : State}

/-- The jump undoes the PC advance, so that the step is its start and its end. -/
theorem step_of_hasFinished (h : HasFinished s) : step s = .next (timerTick (beginStep s)) := by
  obtain ⟨hh, nnn, hpc, hf⟩ := h
  have hexec : exec (.jpNnn nnn) (advancePc (beginStep s)) = .next (setPc (advancePc (beginStep s)) s.pc) :=
    hpc ▸ rfl
  have hnext : nextInstr s = some (.jpNnn nnn) :=
    nextInstr_eq_some.2 ⟨_, hf, decode_eq_ok.1 (decodeEncodeRoundTrip (.jpNnn nnn))⟩
  exact step_of_completed hh hnext hexec hh

/-- The start and the end of a step leave PC, memory and the parameters, and so the jump that comes next. -/
theorem hasFinished_timerTick (h : HasFinished s) : HasFinished (timerTick (beginStep s)) := by
  obtain ⟨hh, nnn, hpc, hf⟩ := h
  exact ⟨hh, nnn, hpc, (fetch_congr (s := s) rfl rfl rfl).trans hf⟩

theorem frame_timerTick_beginStep (s : State) :
    Frame [.dt, .st, .tone, .awaiting, .loadOpen] s (timerTick (beginStep s)) :=
  (frame_beginStep s).trans_mono (frame_timerTick _) (by simp) (by simp)

end

/-- Settles O55, by induction on the steps: each one leaves the program finished and counts the timers down by 1. -/
theorem finishedProgramStays : Obligations.FinishedProgramStays := by
  intro n
  induction n with
  | zero => exact fun s h => ⟨s, rfl, h, Frame.refl _ s, rfl, rfl⟩
  | succ n ih =>
    intro s h
    obtain ⟨t, hrun, hfin, hframe, hdt, hst⟩ := ih _ (hasFinished_timerTick h)
    refine ⟨t, runSteps_succ.2 ⟨_, step_of_hasFinished h, hrun⟩, hfin,
      (frame_timerTick_beginStep s).trans hframe, ?_, ?_⟩
    · simp [hdt, countDown_toNat, Nat.sub_sub, Nat.add_comm]
    · simp [hst, countDown_toNat, Nat.sub_sub, Nat.add_comm]

/-! ### The moves of the host (rule R195) -/

/-- Settles O51, by what each move does to the parts that the invariant speaks of. -/
theorem hostMovesKeepInv : Obligations.HostMovesKeepInv := fun _ _ _ => Invariant.of_hostMove

/-- Latch cell `j` after cell `k` was written. -/
theorem key_get_set (v : Vector Bool 16) {k : Nat} (hk : k < 16) (b : Bool) (j : Fin 16) :
    (v.set k b hk).get j = if j.val = k then b else v.get j := by
  simp [Vector.get_eq_getElem, Vector.getElem_set, eq_comm]

theorem frame_keyDown (s : State) (k : Nibble) : Frame [.key, .kev, .kc] s (keyDown s k) := by
  intro p hp
  cases p <;> simp_all [Part.same, keyDown, readReg, readByte]

theorem frame_keyUp (s : State) (k : Nibble) : Frame [.key] s (keyUp s k) := by
  intro p hp
  cases p <;> simp_all [Part.same, keyUp, readReg, readByte]

theorem frame_clearDp (s : State) : Frame [.dp] s { s with dp := false } := by
  intro p hp
  cases p <;> simp_all [Part.same, readReg, readByte]

theorem frame_resetAgain (s : State) : Frame [.freeIx] (State.resetWith s.cfg) (resetAgain s) := by
  intro p hp
  cases p <;> simp_all [Part.same, resetAgain, readReg, readByte]

/-- The pixel that a Render reads is a bit of its row (10_state.md rule R30). -/
theorem getPixel_row_col (s : State) (x : Fin 64) (y : Fin 32) :
    getPixel s x.val y.val = (s.fb.get y).getLsbD x.val :=
  fbCell_row_col s x.isLt y.isLt

/-- Every cell is a pixel of the frame that a Render reads. -/
theorem getPixel_div_mod (s : State) (j : Nat) : getPixel s (j % 64) (j / 64) = fbCell s j :=
  congrArg (fbCell s) (Nat.div_add_mod' j 64)

/-- Nothing follows a Stop. -/
theorem runEvents_after_stop (e : Event) (es : List Event) (s : State) :
    runEvents (.host .stop :: e :: es) s = none := if_pos ⟨rfl, List.cons_ne_nil e es⟩

/-- Settles O59, move by move. -/
theorem hostMovesHaveTheirEffects : Obligations.HostMovesHaveTheirEffects := fun s k =>
  ⟨⟨_, rfl, key_get_set s.key k.isLt true, rfl, rfl, frame_keyDown s k⟩,
    ⟨_, rfl, key_get_set s.key k.isLt false, frame_keyUp s k⟩,
    fun h => ⟨_, if_pos h, rfl, frame_clearDp s⟩,
    fun h => if_neg (by simp [h]),
    fun x y => ⟨rfl, getPixel_row_col s x y⟩,
    fun j _ => (getPixel_div_mod s j).symm,
    rfl, rfl, rfl, rfl, rfl, fun h => if_pos h, fun h => if_neg (by simp [h]),
    rfl, fun e es => runEvents_after_stop e es s,
    _, rfl, frame_resetAgain s⟩

end Sys2Proof.Machine
end

section
/-! SUPPORT. The loader (70_reset_and_hazards.md rules R204, R206): when Load is enabled, and what it places. -/

namespace Sys2Proof.Machine

/-- A Load is enabled exactly while its window is open and for a program that fits (rules R195, R204, R206). -/
theorem hostMove_load_eq_some {s t : State} {program : List Byte} :
    hostMove (.load program) s = some t ↔
      (s.loadOpen = true ∧ program.length ≤ maxProgramLength) ∧ loadProgram s program = t := by
  simp only [hostMove, Option.ite_none_right_eq_some, Option.some.injEq]

theorem hostMove_load_eq_none {s : State} {program : List Byte} :
    hostMove (.load program) s = none ↔ s.loadOpen = false ∨ maxProgramLength < program.length := by
  simp only [hostMove, ite_eq_right_iff, reduceCtorEq, imp_false, not_and_or, Bool.not_eq_true, Nat.not_le]

theorem frame_loadProgram (s : State) (program : List Byte) :
    Frame [.mem, .loadOpen] s (loadProgram s program) := by
  intro p hp
  cases p <;> simp_all [Part.same, loadProgram, readReg]

section
variable {s : State} {program : List Byte} (hm : Memory.wf s.cfg s.mem = true) (hlen : program.length ≤ 3584)
include hm hlen

/-- Memory after a load: the program from 0x200 upward, and every other byte as before. A program that fits ends at
0xFFF at the latest, so no address comes round. -/
theorem readByte_loadProgram (a : Nat) :
    readByte (loadProgram s program) a =
      if h : 0x200 ≤ a ∧ a < 0x200 + program.length then program[a - 0x200]'(by omega) else readByte s a :=
  Memory.get_setAll s.cfg program s.mem hm 0x200 a (by omega)

theorem readByte_loadProgram_placed {k : Nat} (hk : k < program.length) :
    readByte (loadProgram s program) (0x200 + k) = program[k] := by
  rw [readByte_loadProgram hm hlen, dif_pos (by omega)]
  simp only [Nat.add_sub_cancel_left]

theorem readByte_loadProgram_kept {a : Nat} (ha : a < 0x200 ∨ 0x200 + program.length ≤ a) :
    readByte (loadProgram s program) a = readByte s a := by
  rw [readByte_loadProgram hm hlen, dif_neg (by omega)]

end

/-- Settles O58: Load is enabled under its two conditions alone, and then places the program byte by byte. -/
theorem loadPlacesProgram : Obligations.LoadPlacesProgram := fun s program =>
  ⟨fun hm hopen hlen => ⟨_, hostMove_load_eq_some.2 ⟨⟨hopen, hlen⟩, rfl⟩,
      fun _ hk => readByte_loadProgram_placed hm hlen hk, fun _ ha => readByte_loadProgram_kept hm hlen ha,
      rfl, frame_loadProgram s program⟩,
    fun hlong => hostMove_load_eq_none.2 (.inr hlong),
    fun hclosed => hostMove_load_eq_none.2 (.inl hclosed)⟩

end Sys2Proof.Machine
end
